-- ==== Sys2Proof/Word.lean ====
section
/-!
DEFINITION. The bit-vector types of the DMC: a byte (a port register, a pin mask, a character) and a command word.
-/

namespace Sys2Proof

/-- An 8-bit value: a port register, a byte of a PortMask, a character, a segment set (00_scope.md R11 `PW` = 8). -/
abbrev Byte := BitVec 8

/-- A 48-bit command word (00_scope.md R11 `CW` = 48, 30_encoding.md R65). -/
abbrev CmdWord := BitVec 48

end Sys2Proof
end

