-- ==== Sys2Proof/Syntax.lean ====
section
/-!
DEFINITION. The seven commands of the DMC (30_encoding.md R72), one constructor per row of spec/opcode_table.json, and the
reasons the decoder refuses a word (60_exceptions.md R154).
-/

namespace Sys2Proof

/-- A command with its operands. A count is a Nat and an integer an Int, as the spec's pseudocode computes with them;
their ranges are checked in WellFormed.lean. -/
inductive Instr where
  /-- BEGIN (41_init_blank.md R110). -/
  | begin
  /-- BLANK (41_init_blank.md R112). -/
  | blank
  /-- SETSTR with LEN and the four characters of DATA, `c0` the first of the text (42_content.md R120). -/
  | setstr (len : Nat) (c0 c1 c2 c3 : Byte)
  /-- SETINT with its signed operand (42_content.md R123). -/
  | setint (v : Int)
  /-- SETDP with EN (42_content.md R125). -/
  | setdp (en : Bool)
  /-- ADVANCE (43_multiplex.md R135). -/
  | advance
  /-- TEST (43_multiplex.md R138). -/
  | test
  deriving DecidableEq, Repr

/-- Why a command word is refused (60_exceptions.md R154). -/
inductive RefuseReason where
  /-- REF_OPCODE, code 1: OP is 0x00 or 0x08..0xFF. -/
  | refOpcode
  /-- REF_FIELD, code 2: an assigned OP with a reserved bit set. -/
  | refField
  deriving DecidableEq, Repr

/-- What the decoder answers: exactly one command, or a named refusal (30_encoding.md R67). -/
inductive Decoded where
  | command (i : Instr)
  | refuse (r : RefuseReason)
  deriving DecidableEq, Repr

end Sys2Proof
end

