-- ==== Sys2Proof/WellFormed.lean ====
section
/-!
DEFINITION. Which commands have an encoding: the ranges of LEN and of SETINT's operand (30_encoding.md R69, R70). Every other
operand is of a type that holds exactly its encodable values.
-/

namespace Sys2Proof

/-- The command has a word: LEN fits its three bits (R70) and v is a 32-bit two's-complement value (R69). -/
def Instr.wellFormed : Instr → Bool
  | .begin => true
  | .blank => true
  | .setstr len _ _ _ _ => decide (len ≤ 7)
  | .setint v => decide (-2147483648 ≤ v) && decide (v ≤ 2147483647)
  | .setdp _ => true
  | .advance => true
  | .test => true

end Sys2Proof
end

