-- ==== Sys2Proof/Decode.lean ====
section
/-!
DEFINITION. The decoder of 30_encoding.md R75, total on all 48-bit words, the encoder from the tables of R65, R68..R73, and the
opcode map as match and mask rows (R73).
-/

namespace Sys2Proof

/-- `OP = w[47:40]` (30_encoding.md R65). -/
def opField (w : CmdWord) : BitVec 8 := w.extractLsb' 40 8

/-- `ARG = w[39:32]` (30_encoding.md R65). -/
def argField (w : CmdWord) : BitVec 8 := w.extractLsb' 32 8

/-- `DATA = w[31:0]` (30_encoding.md R65). -/
def dataField (w : CmdWord) : BitVec 32 := w.extractLsb' 0 32

/-- Character i of DATA is `DATA[8*i+7 : 8*i]` (30_encoding.md R68). -/
def dataChar (d : BitVec 32) (i : Nat) : Byte := d.extractLsb' (8 * i) 8

/-- `LEN = ARG[2:0]`, unsigned (30_encoding.md R70). -/
def lenOfArg (arg : BitVec 8) : Nat := (arg.extractLsb' 0 3).toNat

/-- The decoder (30_encoding.md R75): the opcode is tested before the reserved fields (R155). -/
def decode (w : CmdWord) : Decoded :=
  let op := opField w
  let arg := argField w
  let data := dataField w
  if op = 0x01#8 then
    if arg ≠ 0#8 ∨ data ≠ 0#32 then .refuse .refField else .command .begin
  else if op = 0x02#8 then
    if arg ≠ 0#8 ∨ data ≠ 0#32 then .refuse .refField else .command .blank
  else if op = 0x03#8 then
    if arg.extractLsb' 3 5 ≠ 0#5 then .refuse .refField
    else .command (.setstr (lenOfArg arg) (dataChar data 0) (dataChar data 1) (dataChar data 2) (dataChar data 3))
  else if op = 0x04#8 then
    if arg ≠ 0#8 then .refuse .refField else .command (.setint data.toInt)
  else if op = 0x05#8 then
    if arg.extractLsb' 1 7 ≠ 0#7 ∨ data ≠ 0#32 then .refuse .refField else .command (.setdp (arg.getLsbD 0))
  else if op = 0x06#8 then
    if arg ≠ 0#8 ∨ data ≠ 0#32 then .refuse .refField else .command .advance
  else if op = 0x07#8 then
    if arg ≠ 0#8 ∨ data ≠ 0#32 then .refuse .refField else .command .test
  else .refuse .refOpcode

/-- A command word from its three fields, OP in the most significant place (30_encoding.md R65). -/
def mkWord (op arg : BitVec 8) (data : BitVec 32) : CmdWord := op ++ arg ++ data

/-- The encoder, from the opcode map (30_encoding.md R72) and the operand places (R68..R71, R73); reserved bits are 0. -/
def encode : Instr → CmdWord
  | .begin => mkWord 0x01 0 0
  | .blank => mkWord 0x02 0 0
  | .setstr len c0 c1 c2 c3 => mkWord 0x03 (BitVec.ofNat 8 (len % 8)) (c3 ++ c2 ++ c1 ++ c0)
  | .setint v => mkWord 0x04 0 (BitVec.ofInt 32 v)
  | .setdp en => mkWord 0x05 (if en then 1 else 0) 0
  | .advance => mkWord 0x06 0 0
  | .test => mkWord 0x07 0 0

/-- A row of the opcode map (30_encoding.md R73): a word is the command of the row exactly when `w &&& mask = pat`. -/
structure OpcodeRow where
  /-- the row's match value -/
  pat : CmdWord
  /-- the bits the row fixes -/
  mask : CmdWord
  deriving DecidableEq, Repr

/-- The row's words (30_encoding.md R73). -/
def OpcodeRow.accepts (r : OpcodeRow) (w : CmdWord) : Bool := w &&& r.mask == r.pat

/-- The row of spec/opcode_table.json a command belongs to (30_encoding.md R73). -/
def opcodeRow : Instr → OpcodeRow
  | .begin => ⟨0x010000000000, 0xFFFFFFFFFFFF⟩
  | .blank => ⟨0x020000000000, 0xFFFFFFFFFFFF⟩
  | .setstr _ _ _ _ _ => ⟨0x030000000000, 0xFFF800000000⟩
  | .setint _ => ⟨0x040000000000, 0xFFFF00000000⟩
  | .setdp _ => ⟨0x050000000000, 0xFFFEFFFFFFFF⟩
  | .advance => ⟨0x060000000000, 0xFFFFFFFFFFFF⟩
  | .test => ⟨0x070000000000, 0xFFFFFFFFFFFF⟩

/-- The seven rows, in the order of 30_encoding.md R73. -/
def opcodeRows : List OpcodeRow :=
  [opcodeRow .begin, opcodeRow .blank, opcodeRow (.setstr 0 0 0 0 0), opcodeRow (.setint 0),
   opcodeRow (.setdp false), opcodeRow .advance, opcodeRow .test]

/-- The word the table's numbering gives: its low `nbits` bits, every bit above them 0. A command is one 48-bit word, so
bit 0 of the number is bit 0 of the word (30_encoding.md R65, R66; log 12). -/
def tableWord (nbits w : Nat) : CmdWord := BitVec.ofNat 48 (w % 2 ^ nbits)

/-- The command the decoder reads from a table word, none where it refuses. -/
def decodeTableWord (nbits w : Nat) : Option Instr :=
  match decode (tableWord nbits w) with
  | .command i => some i
  | .refuse _ => none

end Sys2Proof
end

