-- ==== Sys2Proof/Config.lean ====
section
/-!
DEFINITION. The configuration of a DMC instance (00_scope.md R11, R12; 10_state.md R30, R31), the inputs of CONSTRUCT
(70_reset_and_hazards.md R171), and the open values of the spec as constants without a body.
-/

namespace Sys2Proof

/-- The eight segment signals, in the source's order (40_lookup.md R85). -/
inductive SegmentId where
  | a | b | c | d | e | f | g | dp
  deriving DecidableEq, Repr

/-- The four wiring variants (40_lookup.md R98): CA = COMMON_ANODE, CC = COMMON_CATHODE,
CAID = COMMON_ANODE_INV_DIGIT, CCID = COMMON_CATHODE_INV_DIGIT. -/
inductive Polarity where
  | ca | cc | caid | ccid
  deriving DecidableEq, Repr

/-- One 8-bit set of pins per port, port 0 first (40_lookup.md R86). A list, so that a table with the wrong number of
bytes can be written down and refused (check M1 of R90). -/
abbrev PortMask := List Byte

/-- One entry of the symbol table: a glyph and its segment set (10_state.md R31, 40_lookup.md R92). -/
structure SymEntry where
  glyph : Byte
  segs  : Byte
  deriving DecidableEq, Repr

/-- The configuration of an instance: fixed for its life, replaced only by a later CONSTRUCT (00_scope.md R12,
10_state.md R30, R31). `cfg` is the configuration word itself; DIGITS and POL are its fields
(`Config.digits`, `Config.pol`). -/
structure Config where
  /-- The configuration word CFG: DIGITS in bits 2:0, POL in bits 4:3, bits 7:5 reserved (10_state.md R30). -/
  cfg : Byte
  /-- NPORTS, the number of physical ports (00_scope.md R11). -/
  nports : Nat
  /-- SEGMASK, indexed by the code of the segment (10_state.md R31). -/
  segMask : Vector PortMask 8
  /-- DIGMASK, indexed by the digit slot (10_state.md R31). -/
  digMask : Vector PortMask 4
  /-- SYMTAB; SYMCOUNT is its length (10_state.md R31). -/
  symtab : List SymEntry
  /-- The parameter TEST_ADVANCES_CUR, default true (92_eei_decisions.md D20, 93_implementation_defined.md I8; log 10). -/
  testAdvancesCur : Bool := true
  deriving DecidableEq, Repr

/-- What CONSTRUCT is given (70_reset_and_hazards.md R171). `symtab := none` names no symbol table: the default of
40_lookup.md R97 is used. The last field is the model's parameter of D20, not an input the hardware has (log 10). -/
structure ConstructInput where
  cfg : Byte
  nports : Nat
  segMask : Vector PortMask 8
  digMask : Vector PortMask 4
  symtab : Option (List SymEntry) := none
  testAdvancesCur : Bool := true
  deriving DecidableEq, Repr

/-- The draw PORT_INIT: what port `p`'s output register holds when the first instance starts. Any value: no body
(10_state.md R36, 92_eei_decisions.md D15; log 2). -/
opaque Config.portInit : Nat → Byte

/-- The draw DIR_INIT: what port `p`'s direction register holds when the first instance starts. Any value: no body
(10_state.md R36, 92_eei_decisions.md D15; log 2). -/
opaque Config.dirInit : Nat → Byte

/-- PORT_ADDR, the platform address of port `p`'s registers: open, and no rule depends on it (20_memory.md R46,
92_eei_decisions.md D28; log 18). -/
opaque Config.portAddr : Nat → Nat

end Sys2Proof
end

