-- ==== Sys2Proof/Machine/Lookup.lean ====
section
/-!
DEFINITION. The three leaf components of the DMC as pure functions of the configuration: the port bitmask model
(40_lookup.md R85..R91), the symbol table (R92..R97) and the polarity resolver (R98..R102).
-/

namespace Sys2Proof

/-! ### Segments and masks -/

/-- The 3-bit code of a segment (40_lookup.md R85). -/
def SegmentId.code : SegmentId → Fin 8
  | .a => 0 | .b => 1 | .c => 2 | .d => 3 | .e => 4 | .f => 5 | .g => 6 | .dp => 7

/-- The eight segments in ascending code: the order in which a set is driven (40_lookup.md R92, R108). -/
def SegmentId.all : List SegmentId := [.a, .b, .c, .d, .e, .f, .g, .dp]

/-- The four digit slots, ascending. -/
def allSlots : List (Fin 4) := [0, 1, 2, 3]

/-- `m[p]`: the pins of port `p` in the mask (40_lookup.md R86). -/
def PortMask.byte (m : PortMask) (p : Nat) : Byte := m.getD p 0#8

/-- The mask with every byte 0 (40_lookup.md R86). -/
def PortMask.zero (nports : Nat) : PortMask := List.replicate nports 0#8

/-- `m | n`, bytewise (40_lookup.md R86). -/
def PortMask.or : PortMask → PortMask → PortMask
  | [], n => n
  | m, [] => m
  | x :: m, y :: n => (x ||| y) :: PortMask.or m n

/-- `m & n`, bytewise (40_lookup.md R86). -/
def PortMask.and : PortMask → PortMask → PortMask
  | x :: m, y :: n => (x &&& y) :: PortMask.and m n
  | _, _ => []

/-- Every byte of the mask is 0; a mask is *non-zero* when this fails (40_lookup.md R86). -/
def PortMask.isZero (m : PortMask) : Bool := m.all (· == 0#8)

/-- `m[p] & n[p] = 0` for every p (40_lookup.md R86). -/
def PortMask.disjoint (m n : PortMask) : Bool := PortMask.isZero (PortMask.and m n)

namespace Config

/-- DIGITS = `CFG[2:0]` (10_state.md R30). -/
def digits (c : Config) : Nat := (c.cfg.extractLsb' 0 3).toNat

/-- SYMCOUNT, the length of SYMTAB (00_scope.md R11). -/
def symcount (c : Config) : Nat := c.symtab.length

/-- `maskForSegment(id) = SEGMASK[id]` (40_lookup.md R87). -/
def maskForSegment (c : Config) (id : SegmentId) : PortMask := c.segMask[id.code]

/-- `maskForDigit(s)`: the table's mask for a used slot, zero for an unused one (40_lookup.md R88). -/
def maskForDigit (c : Config) (s : Fin 4) : PortMask :=
  if s.val < c.digits then c.digMask[s] else PortMask.zero c.nports

/-- `allSegmentsMask()` (40_lookup.md R89). -/
def allSegmentsMask (c : Config) : PortMask :=
  SegmentId.all.foldl (fun m id => PortMask.or m (c.maskForSegment id)) (PortMask.zero c.nports)

/-- `allDigitsMask()` (40_lookup.md R89). -/
def allDigitsMask (c : Config) : PortMask :=
  allSlots.foldl (fun m s => PortMask.or m (c.maskForDigit s)) (PortMask.zero c.nports)

/-- `OWN`, the pins the DMC owns (40_lookup.md R89, 20_memory.md R49). -/
def own (c : Config) : PortMask := PortMask.or c.allSegmentsMask c.allDigitsMask

end Config

/-! ### Symbol table -/

/-- `segmentsFor(g)` on a table: the first entry with exactly this glyph, the blank set when none has it
(40_lookup.md R93, R94). -/
def segmentsIn : List SymEntry → Byte → Byte
  | [], _ => 0x00
  | e :: rest, g => if e.glyph = g then e.segs else segmentsIn rest g

namespace Config

/-- `segmentsFor(g)` (40_lookup.md R93). -/
def segmentsFor (c : Config) (g : Byte) : Byte := segmentsIn c.symtab g

/-- `SYMTAB[k].segs`, the entry TEST shows. An index past the table, which no reachable state holds (10_state.md R37),
reads as the blank set and never as another entry (40_lookup.md R94; log 11). -/
def entrySegs (c : Config) (k : Nat) : Byte :=
  match c.symtab[k]? with
  | some e => e.segs
  | none => 0x00

end Config

/-- SegmentId `id` is in the segment set (40_lookup.md R92). -/
def inSegs (segs : Byte) (id : SegmentId) : Bool := segs.getLsbD id.code.val

/-- The default symbol table, 20 entries (40_lookup.md R97). -/
def defaultSymtab : List SymEntry :=
  [⟨0x30, 0x3F⟩, ⟨0x31, 0x06⟩, ⟨0x32, 0x5B⟩, ⟨0x33, 0x4F⟩, ⟨0x34, 0x66⟩,
   ⟨0x35, 0x6D⟩, ⟨0x36, 0x7D⟩, ⟨0x37, 0x07⟩, ⟨0x38, 0x7F⟩, ⟨0x39, 0x6F⟩,
   ⟨0x61, 0x77⟩, ⟨0x62, 0x7C⟩, ⟨0x63, 0x39⟩, ⟨0x64, 0x5E⟩, ⟨0x65, 0x79⟩,
   ⟨0x66, 0x71⟩, ⟨0x68, 0x74⟩, ⟨0x69, 0x10⟩, ⟨0x2D, 0x40⟩, ⟨0x20, 0x00⟩]

/-! ### Polarity resolver -/

/-- The polarity a 2-bit code names (40_lookup.md R98). -/
def Polarity.ofCode (code : BitVec 2) : Polarity :=
  match code.toNat with
  | 0 => .ca
  | 1 => .cc
  | 2 => .caid
  | _ => .ccid

/-- `DA(POL)`: the active level of a digit-select line, true for high (40_lookup.md R99). -/
def Polarity.digitActive : Polarity → Bool
  | .ca => true
  | .cc => false
  | .caid => false
  | .ccid => true

/-- `SA(POL)`: the active level of a segment line, true for high (40_lookup.md R99). -/
def Polarity.segActive : Polarity → Bool
  | .ca => false
  | .cc => true
  | .caid => false
  | .ccid => true

/-- `digitLevel(POL, assert)` (40_lookup.md R100). -/
def digitLevel (pol : Polarity) (assert : Bool) : Bool := if assert then pol.digitActive else !pol.digitActive

/-- `segLevel(POL, assert)` (40_lookup.md R101). -/
def segLevel (pol : Polarity) (assert : Bool) : Bool := if assert then pol.segActive else !pol.segActive

/-- POL = `CFG[4:3]` (10_state.md R30). -/
def Config.pol (c : Config) : Polarity := Polarity.ofCode (c.cfg.extractLsb' 3 2)

end Sys2Proof
end

