-- ==== Sys2Proof/Machine/Checks.lean ====
section
/-!
DEFINITION. The checks a configuration must pass at CONSTRUCT: K1 and K2 (70_reset_and_hazards.md R171), M1..M6
(40_lookup.md R90) and S1..S4 (40_lookup.md R96); and the reference configurations of 95_test_vectors.md.
-/

namespace Sys2Proof

/-- The names of the checks (70_reset_and_hazards.md R171). -/
inductive ConfigCheck where
  | k1 | k2 | m1 | m2 | m3 | m4 | m5 | m6 | s1 | s2 | s3 | s4
  deriving DecidableEq, Repr

/-- The checks in the order R171 lists them; the first that fails is the one recorded (log 8). -/
def ConfigCheck.all : List ConfigCheck := [.k1, .k2, .m1, .m2, .m3, .m4, .m5, .m6, .s1, .s2, .s3, .s4]

/-- The glyphs every table must hold: '0'..'9', 'a'..'f', '-' and ' ' (40_lookup.md R96 S2). -/
def requiredGlyphs : List Byte :=
  [0x30, 0x31, 0x32, 0x33, 0x34, 0x35, 0x36, 0x37, 0x38, 0x39, 0x61, 0x62, 0x63, 0x64, 0x65, 0x66, 0x2D, 0x20]

/-- The glyphs no table may hold: 'x', 'y' and 'z' (40_lookup.md R96 S4). -/
def forbiddenGlyphs : List Byte := [0x78, 0x79, 0x7A]

/-- Some entry of the table has this glyph. -/
def hasGlyph (t : List SymEntry) (g : Byte) : Bool := t.any (fun e => e.glyph == g)

/-- What each check asks of a configuration. -/
def ConfigCheck.holds (k : ConfigCheck) (c : Config) : Bool :=
  match k with
  | .k1 => decide (1 ≤ c.digits) && decide (c.digits ≤ 4)
  | .k2 => c.cfg.extractLsb' 5 3 == 0#3
  | .m1 => decide (1 ≤ c.nports)
      && SegmentId.all.all (fun id => (c.maskForSegment id).length == c.nports)
      && allSlots.all (fun s => (c.digMask[s]).length == c.nports)
  | .m2 => SegmentId.all.all (fun id => !(c.maskForSegment id).isZero)
  | .m3 => SegmentId.all.all (fun i => SegmentId.all.all (fun j =>
      i == j || (c.maskForSegment i).disjoint (c.maskForSegment j)))
  | .m4 => allSlots.all (fun s => !decide (s.val < c.digits) || !(c.digMask[s]).isZero)
  | .m5 => allSlots.all (fun s => allSlots.all (fun t =>
      s == t || !decide (s.val < c.digits) || !decide (t.val < c.digits)
        || (PortMask.disjoint c.digMask[s] c.digMask[t])))
  | .m6 => c.allSegmentsMask.disjoint c.allDigitsMask
  | .s1 => decide (1 ≤ c.symcount) && decide (c.symcount ≤ 256)
  | .s2 => requiredGlyphs.all (hasGlyph c.symtab)
  | .s3 => c.segmentsFor 0x20 == 0x00
  | .s4 => forbiddenGlyphs.all (fun g => !hasGlyph c.symtab g)

/-- The first check the configuration fails, if any (70_reset_and_hazards.md R171; log 8). -/
def Config.failing (c : Config) : Option ConfigCheck := ConfigCheck.all.find? (fun k => !k.holds c)

/-- The configuration passes every check, so an instance of it exists (70_reset_and_hazards.md R171). -/
def Config.admitted (c : Config) : Bool := ConfigCheck.all.all (fun k => k.holds c)

/-- The configuration CONSTRUCT stores: the inputs, with the default symbol table where none is named
(70_reset_and_hazards.md R171). -/
def ConstructInput.config (c : ConstructInput) : Config :=
  { cfg := c.cfg, nports := c.nports, segMask := c.segMask, digMask := c.digMask,
    symtab := c.symtab.getD defaultSymtab, testAdvancesCur := c.testAdvancesCur }

/-! ### Reference configurations -/

/-- REF-A: segment id on port 2 bit id (95_test_vectors.md §1). -/
def refASegMask : Vector PortMask 8 :=
  #v[[0, 0, 0x01], [0, 0, 0x02], [0, 0, 0x04], [0, 0, 0x08], [0, 0, 0x10], [0, 0, 0x20], [0, 0, 0x40], [0, 0, 0x80]]

/-- REF-A and REF-B: digit slot s on port 0 bit s (95_test_vectors.md §1). -/
def refDigMask : Vector PortMask 4 := #v[[0x01, 0, 0], [0x02, 0, 0], [0x04, 0, 0], [0x08, 0, 0]]

/-- REF-B: segments over two ports, DP on both (95_test_vectors.md §1). -/
def refBSegMask : Vector PortMask 8 :=
  #v[[0, 0x01, 0], [0, 0x02, 0], [0, 0x04, 0], [0, 0x08, 0], [0, 0, 0x01], [0, 0, 0x02], [0, 0, 0x04], [0, 0x80, 0x08]]

/-- The inputs of CONSTRUCT with REF-A tables and this CFG (95_test_vectors.md §1). -/
def refA (cfg : Byte) : ConstructInput := { cfg := cfg, nports := 3, segMask := refASegMask, digMask := refDigMask }

/-- The inputs of CONSTRUCT with REF-B tables and this CFG (95_test_vectors.md §1). -/
def refB (cfg : Byte) : ConstructInput := { cfg := cfg, nports := 3, segMask := refBSegMask, digMask := refDigMask }

/-- The inputs of CONSTRUCT that State.reset is the result of: REF-A, four digits, common anode
(the example of 70_reset_and_hazards.md R172; log 1). -/
def resetInput : ConstructInput := refA 0x04

end Sys2Proof
end

