-- ==== Sys2Proof/Machine/State.lean ====
section
/-!
DEFINITION. The state of the DMC (10_state.md R20, R36), the events of the host's list (R33, R38; 60_exceptions.md R167), the
model's fault and refusals, and the state after reset.
-/

namespace Sys2Proof.Machine

/-- One call of a port primitive (00_scope.md R15, 20_memory.md R50..R52); a command's trace is a list of them (R17). -/
inductive PrimCall where
  | portSet (p : Nat) (m : Byte)
  | portClear (p : Nat) (m : Byte)
  | dirOut (p : Nat) (m : Byte)
  deriving DecidableEq, Repr

/-- The two registers of a port (20_memory.md R45). -/
inductive PortReg where
  | out | dir
  deriving DecidableEq, Repr

/-- What can reach the DMC at a command boundary (60_exceptions.md R167). -/
inductive Event where
  /-- The host delivers one 48-bit command word (30_encoding.md R66). -/
  | command (w : CmdWord)
  /-- The host starts a new instance (70_reset_and_hazards.md R174). -/
  | construct (c : ConstructInput)
  /-- Another subsystem sets the bits of `mask` in one register of port `p` to those of `value` (20_memory.md R64). -/
  | external (r : PortReg) (p : Nat) (mask value : Byte)
  deriving DecidableEq, Repr

/-- The machine's one fault. The DMC itself has none (60_exceptions.md R150): no command raises it. -/
inductive Fault where
  /-- Raised by an `external` event that names a port that does not exist (20_memory.md R46; log 9, log 25). Safe: the
  spec has no such access. -/
  | noSuchPort (p : Nat)
  deriving DecidableEq, Repr

/-- Where the model has no move. -/
inductive Refusal where
  /-- Raised by `exec` for an instruction without a meaning. Safe. (No instruction is left without one.) -/
  | notModelled (mnemonic : String)
  /-- REF_CONFIG: raised by CONSTRUCT for a configuration that fails a check; it carries the configuration and the first
  failing check (60_exceptions.md R153, R154). Safe: no instance exists. -/
  | refConfig (c : ConstructInput) (k : ConfigCheck)
  /-- Raised by an `external` event that writes a bit the DMC owns: outside the model (20_memory.md R64,
  93_implementation_defined.md I12). Safe. -/
  | ownedWrite (p : Nat) (mask : Byte)
  /-- Raised by `boot` for a command before any CONSTRUCT (70_reset_and_hazards.md R173, I13). Safe. -/
  | noInstance
  deriving DecidableEq, Repr

/-- The state (10_state.md R20), with the records the spec makes the model keep (00_scope.md R17, 60_exceptions.md R152) and
the host's list of events (10_state.md R33). -/
structure State where
  /-- CFG, NPORTS, SEGMASK, DIGMASK, SYMTAB (10_state.md R30, R31). -/
  config : Config
  /-- BUF[0..3] (10_state.md R22). -/
  buf : Vector Byte 4
  /-- CUR, 2 bits (10_state.md R24). -/
  cur : Fin 4
  /-- DP (10_state.md R25). -/
  dp : Bool
  /-- SYMCUR, 8 bits (10_state.md R26). -/
  symcur : Fin 256
  /-- PORT[p], port 0 first (10_state.md R27). -/
  port : List Byte
  /-- DIR[p], port 0 first; bit 1 = output (10_state.md R28). -/
  dir : List Byte
  /-- REFUSED (10_state.md R35). -/
  refused : Bool
  /-- The refused words of the run and why, oldest first (60_exceptions.md R152). -/
  refusals : List (CmdWord × RefuseReason)
  /-- The primitive calls of the run, oldest first (00_scope.md R17, 60_exceptions.md R165). -/
  trace : List PrimCall
  /-- What is left of the host's list, next first (10_state.md R33). -/
  pending : List Event
  /-- The position in the host's list: the number of commands delivered (10_state.md R33). -/
  pos : Nat
  deriving DecidableEq, Repr

/-- The state after the first CONSTRUCT with an admitted configuration, for any draws PORT_INIT and DIR_INIT
(10_state.md R36, 70_reset_and_hazards.md R172, R173). -/
def State.fresh (c : Config) (portInit dirInit : Nat → Byte) : State where
  config := c
  buf := #v[0x20, 0x20, 0x20, 0x20]
  cur := 0
  dp := false
  symcur := 0
  port := (List.range c.nports).map portInit
  dir := (List.range c.nports).map dirInit
  refused := false
  refusals := []
  trace := []
  pending := []
  pos := 0

/-- The machine right after reset: the first CONSTRUCT with the configuration of log 1, from the draws that
`Config.portInit` and `Config.dirInit` leave open (log 2). -/
def State.reset : State := State.fresh resetInput.config Config.portInit Config.dirInit

end Sys2Proof.Machine
end

