-- ==== Sys2Proof/Machine/Ops.lean ====
section
/-!
DEFINITION. The named operations over the registers and the ports: the setters, the three primitives (20_memory.md R50..R52),
the drive procedures (40_lookup.md R103..R108), refusing a word (60_exceptions.md R152) and the writes of other
subsystems (20_memory.md R64). The hardware has no exception to take (60_exceptions.md R150): refusing a word is the one
shared operation that stands in its place.
-/

namespace Sys2Proof.Machine

namespace State

/-! ### Registers -/

/-- `BUF <- b`. -/
def setBuf (b : Vector Byte 4) (s : State) : State := { s with buf := b }

/-- `CUR <- v`. -/
def setCur (v : Fin 4) (s : State) : State := { s with cur := v }

/-- `SYMCUR <- v`. -/
def setSymcur (v : Fin 256) (s : State) : State := { s with symcur := v }

/-! ### Primitives -/

/-- `PORT[p]`, none for a port that does not exist (20_memory.md R46). -/
def readPort (s : State) (p : Nat) : Option Byte := s.port[p]?

/-- `DIR[p]`, none for a port that does not exist (20_memory.md R46). -/
def readDir (s : State) (p : Nat) : Option Byte := s.dir[p]?

/-- One primitive call, recorded in the trace: PortSet, PortClear or DirOut (20_memory.md R50, R51, R52). Each is one
read-modify-write of one register (R54). -/
def perform (c : PrimCall) (s : State) : State :=
  match c with
  | .portSet p m => { s with port := s.port.modify p (fun v => v ||| m), trace := s.trace ++ [c] }
  | .portClear p m => { s with port := s.port.modify p (fun v => v &&& ~~~m), trace := s.trace ++ [c] }
  | .dirOut p m => { s with dir := s.dir.modify p (fun v => v ||| m), trace := s.trace ++ [c] }

/-- Calls one after the other, in order (20_memory.md R60). -/
def performAll (cs : List PrimCall) (s : State) : State := cs.foldl (fun t c => t.perform c) s

end State

/-- The calls of `driveGroup(m, level)`: one per port with a non-zero byte, in ascending port order
(40_lookup.md R103, 20_memory.md R55). -/
def groupCalls (nports : Nat) (m : PortMask) (level : Bool) : List PrimCall :=
  (List.range nports).filterMap fun p =>
    if m.byte p = 0#8 then none
    else some (if level then .portSet p (m.byte p) else .portClear p (m.byte p))

/-- The calls that make the pins of a mask outputs, in ascending port order (41_init_blank.md R110). -/
def dirCalls (nports : Nat) (m : PortMask) : List PrimCall :=
  (List.range nports).filterMap fun p => if m.byte p = 0#8 then none else some (.dirOut p (m.byte p))

namespace State

/-- `driveGroup(m, level)` (40_lookup.md R103). -/
def driveGroup (m : PortMask) (level : Bool) (s : State) : State :=
  s.performAll (groupCalls s.config.nports m level)

/-- `driveDigit(s, assert)` (40_lookup.md R104). -/
def driveDigit (slot : Fin 4) (assert : Bool) (s : State) : State :=
  s.driveGroup (s.config.maskForDigit slot) (digitLevel s.config.pol assert)

/-- `driveSegment(id, assert)` (40_lookup.md R105). -/
def driveSegment (id : SegmentId) (assert : Bool) (s : State) : State :=
  s.driveGroup (s.config.maskForSegment id) (segLevel s.config.pol assert)

/-- `blankAll()`: every digit line inactive, then every segment line (40_lookup.md R106). -/
def blankAll (s : State) : State :=
  (s.driveGroup s.config.allDigitsMask (digitLevel s.config.pol false)).driveGroup
    s.config.allSegmentsMask (segLevel s.config.pol false)

/-- `lightSegs(segs)`: the segments of the set active, in ascending order (40_lookup.md R108). -/
def lightSegs (segs : Byte) (s : State) : State :=
  SegmentId.all.foldl (fun t id => if inSegs segs id then t.driveSegment id true else t) s

/-- Every owned pin becomes an output: the first loop of BEGIN (41_init_blank.md R110). -/
def outputOwned (s : State) : State := s.performAll (dirCalls s.config.nports s.config.own)

/-! ### Cursors -/

/-- `(CUR + 1) mod DIGITS` (10_state.md R24). -/
def nextCur (s : State) : Fin 4 := Fin.ofNat 4 ((s.cur.val + 1) % s.config.digits)

/-- `(SYMCUR + 1) mod SYMCOUNT` (10_state.md R26). -/
def nextSymcur (s : State) : Fin 256 := Fin.ofNat 256 ((s.symcur.val + 1) % s.config.symcount)

/-- `CUR` is the last used slot, DIGITS-1 (43_multiplex.md R135 step 4). -/
def atLastSlot (s : State) : Bool := s.cur.val + 1 == s.config.digits

/-! ### The host's list -/

/-- The next command word is taken from the list: the position advances by one, refused or not
(10_state.md R33, 30_encoding.md R81). -/
def takeCommand (rest : List Event) (s : State) : State := { s with pending := rest, pos := s.pos + 1 }

/-- An event that is no command is taken from the list; the position counts commands only (log 6). -/
def takeOther (rest : List Event) (s : State) : State := { s with pending := rest }

/-- A word is put at the head of the host's list, to be delivered next. -/
def deliverNext (w : CmdWord) (s : State) : State := { s with pending := .command w :: s.pending }

/-! ### Writes of other subsystems -/

/-- The bits of `mask` in one register of port `p` take the bits of `value` (20_memory.md R64). -/
def externalWrite (r : PortReg) (p : Nat) (mask value : Byte) (s : State) : State :=
  match r with
  | .out => { s with port := s.port.modify p (fun v => (v &&& ~~~mask) ||| (value &&& mask)) }
  | .dir => { s with dir := s.dir.modify p (fun v => (v &&& ~~~mask) ||| (value &&& mask)) }

end State

/-- An `external` event: a port that does not exist is a fault, a bit inside OWN is outside the model, any other write
takes effect (20_memory.md R46, R64, 60_exceptions.md R167; log 9). A port left over from an earlier instance, at or beyond
the present NPORTS, still exists here and takes the write (DESIGN CHOICE, log 25). -/
def externalEvent (r : PortReg) (p : Nat) (mask value : Byte) (s : State) : Host.Outcome State Fault Refusal :=
  if s.port.length ≤ p then .fault (.noSuchPort p)
  else if mask &&& s.config.own.byte p ≠ 0 then .refused (.ownedWrite p mask)
  else .next (s.externalWrite r p mask value)

end Sys2Proof.Machine
end

