-- ==== Sys2Proof/Machine/Construct.lean ====
section
/-!
DEFINITION. CONSTRUCT, the one reset of the DMC (70_reset_and_hazards.md R170..R174), and the start of a first instance
(R173, R175).
-/

namespace Sys2Proof.Machine

/-- The port registers for `n` ports: those that exist stay as they are, a port that appears takes its draw (log 7). -/
def extendPorts (n : Nat) (init : Nat → Byte) (l : List Byte) : List Byte :=
  l ++ (List.range' l.length (n - l.length)).map init

/-- The new instance (70_reset_and_hazards.md R172, R174): BUF, CUR, DP, SYMCUR and REFUSED at their reset values, no port
access. A run is CONSTRUCT followed by command words (60_exceptions.md R165), so the trace, the record of refused words
and the position start anew (log 6); the rest of the host's list stays. -/
def State.newInstance (c : Config) (s : State) : State :=
  { config := c
    buf := #v[0x20, 0x20, 0x20, 0x20]
    cur := 0
    dp := false
    symcur := 0
    port := extendPorts c.nports Config.portInit s.port
    dir := extendPorts c.nports Config.dirInit s.dir
    refused := false
    refusals := []
    trace := []
    pending := s.pending
    pos := 0 }

/-- CONSTRUCT (70_reset_and_hazards.md R171, R172): a configuration that fails a check is refused REF_CONFIG, with the
configuration and the first failing check (60_exceptions.md R153, R154). -/
def construct (c : ConstructInput) (s : State) : Host.Outcome State Fault Refusal :=
  match c.config.failing with
  | some k => .refused (.refConfig c k)
  | none => .next (s.newInstance c.config)

/-- The start of the device from a list of events and any draws: nothing has a meaning before the first CONSTRUCT, and a
command there is refused (70_reset_and_hazards.md R173, 93_implementation_defined.md I13). What other subsystems write
before it is part of the draws (log 20). -/
def boot (portInit dirInit : Nat → Byte) : List Event → Host.Outcome State Fault Refusal
  | [] => .refused .noInstance
  | .command _ :: _ => .refused .noInstance
  | .external _ _ _ _ :: rest => boot portInit dirInit rest
  | .construct c :: rest =>
    match c.config.failing with
    | some k => .refused (.refConfig c k)
    | none => .next { State.fresh c.config portInit dirInit with pending := rest }

end Sys2Proof.Machine
end

