-- ==== Sys2Proof/Machine/Flags.lean ====
section
/-!
DEFINITION. The two one-bit marks of the state: DP, the only flag (10_state.md R25, R32), and REFUSED with its record
(10_state.md R35, 60_exceptions.md R152).
-/

namespace Sys2Proof.Machine.State

/-- `DP <- v` (42_content.md R125). -/
def setDp (v : Bool) (s : State) : State := { s with dp := v }

/-- A refused word: REFUSED is set, the word and the reason are recorded, and nothing else changes
(60_exceptions.md R152). -/
def refuseWord (w : CmdWord) (r : RefuseReason) (s : State) : State :=
  { s with refused := true, refusals := s.refusals ++ [(w, r)] }

/-- DP is lit by an ADVANCE: the slot is the last one and the flag is on (43_multiplex.md R135 step 4). -/
def dpFires (s : State) : Bool := s.atLastSlot && s.dp

end Sys2Proof.Machine.State
end

