-- ==== Sys2Proof/Machine/Operands.lean ====
section
/-!
DEFINITION. The operand forms of the content commands: the text of SETSTR, the decimal text of SETINT (42_content.md R122),
and the copy into the buffer with its clamp (R120, R123).
-/

namespace Sys2Proof.Machine

/-- The loop of `dec`: digits of `a` prepended to `t`, least significant first, until none is left (42_content.md R122).
The first argument bounds the number of rounds; `a` rounds are always enough. -/
def decLoop : Nat → Nat → List Byte → List Byte
  | 0, _, t => t
  | fuel + 1, a, t => if a = 0 then t else decLoop fuel (a / 10) (BitVec.ofNat 8 (0x30 + a % 10) :: t)

/-- `dec(v)`, the decimal text of an integer (42_content.md R122). -/
def dec (v : Int) : List Byte :=
  if v = 0 then [0x30]
  else
    let t := decLoop v.natAbs v.natAbs []
    if v < 0 then 0x2D :: t else t

/-- `BUF[i] <- t[i]` for i = 0 to n-1; the other cells keep their content (42_content.md R120). -/
def copyText (n : Nat) (t : List Byte) (b : Vector Byte 4) : Vector Byte 4 :=
  Vector.ofFn fun i => if i.val < n then t.getD i.val b[i] else b[i]

/-- The first `min(len, DIGITS)` characters of a text go into the buffer, from cell 0 (42_content.md R120, R123). -/
def State.writeText (len : Nat) (t : List Byte) (s : State) : State :=
  s.setBuf (copyText (min len s.config.digits) t s.buf)

end Sys2Proof.Machine
end

