-- ==== Sys2Proof/Machine/Content.lean ====
section
/-!
DEFINITION. The content commands SETSTR, SETINT and SETDP (42_content.md). None of them touches the ports (R126).
-/

namespace Sys2Proof.Machine

/-- SETSTR: up to DIGITS characters of the text, from cell 0; stale content is retained (42_content.md R120). -/
def execSetstr (len : Nat) (c0 c1 c2 c3 : Byte) (s : State) : Host.Outcome State Fault Refusal :=
  .next (s.writeText len [c0, c1, c2, c3])

/-- SETINT: the leading characters of the decimal text, from cell 0 (42_content.md R123). -/
def execSetint (v : Int) (s : State) : Host.Outcome State Fault Refusal :=
  .next (s.writeText (dec v).length (dec v))

/-- SETDP: `DP <- EN` (42_content.md R125). -/
def execSetdp (en : Bool) (s : State) : Host.Outcome State Fault Refusal := .next (s.setDp en)

end Sys2Proof.Machine
end

