-- ==== Sys2Proof/Machine/InitBlank.lean ====
section
/-!
DEFINITION. The initialisation and blanking commands BEGIN and BLANK (41_init_blank.md).
-/

namespace Sys2Proof.Machine

/-- BEGIN: the owned pins become outputs, then the display is blanked (41_init_blank.md R110). -/
def execBegin (s : State) : Host.Outcome State Fault Refusal := .next s.outputOwned.blankAll

/-- BLANK: every digit and segment line inactive (41_init_blank.md R112). -/
def execBlank (s : State) : Host.Outcome State Fault Refusal := .next s.blankAll

end Sys2Proof.Machine
end

