-- ==== Sys2Proof/Machine/Multiplex.lean ====
section
/-!
DEFINITION. The multiplexing commands ADVANCE and TEST (43_multiplex.md).
-/

namespace Sys2Proof.Machine

/-- Step 4 of ADVANCE: DP is driven active when the flag applies to this slot (43_multiplex.md R135). -/
def State.lightDp (fires : Bool) (s : State) : State := if fires then s.driveSegment .dp true else s

/-- ADVANCE (43_multiplex.md R135): blank, light the glyph of the current slot, the decimal point on the last slot, select
the slot, move the cursor. The slot, the glyph and the flag are those at the start of the command. -/
def execAdvance (s : State) : Host.Outcome State Fault Refusal :=
  let segs := s.config.segmentsFor s.buf[s.cur]
  .next ((((s.blankAll.lightSegs segs).lightDp s.dpFires).driveDigit s.cur true).setCur s.nextCur)

/-- Where TEST leaves CUR: as ADVANCE does, unless the parameter TEST_ADVANCES_CUR is false (43_multiplex.md R138, D20). -/
def State.testCur (s : State) : Fin 4 := if s.config.testAdvancesCur then s.nextCur else s.cur

/-- TEST (43_multiplex.md R138): as ADVANCE, with the symbol table's entry SYMCUR in place of the buffer and without the
decimal point; both cursors move. -/
def execTest (s : State) : Host.Outcome State Fault Refusal :=
  let segs := s.config.entrySegs s.symcur.val
  .next ((((s.blankAll.lightSegs segs).driveDigit s.cur true).setCur s.testCur).setSymcur s.nextSymcur)

end Sys2Proof.Machine
end

