-- ==== Sys2Proof/Machine/Dispatch.lean ====
section
/-!
DEFINITION. One arm per command, each one direct call of the command's meaning.
-/

namespace Sys2Proof.Machine

def exec (i : Instr) (s : State) : Host.Outcome State Fault Refusal :=
  match i with
  | .begin => Sys2Proof.Machine.execBegin s
  | .blank => Sys2Proof.Machine.execBlank s
  | .setstr len c0 c1 c2 c3 => Sys2Proof.Machine.execSetstr len c0 c1 c2 c3 s
  | .setint v => Sys2Proof.Machine.execSetint v s
  | .setdp en => Sys2Proof.Machine.execSetdp en s
  | .advance => Sys2Proof.Machine.execAdvance s
  | .test => Sys2Proof.Machine.execTest s

end Sys2Proof.Machine
end

