-- ==== Sys2Proof/Machine/Deliver.lean ====
section
/-!
DEFINITION. What one event of the host's list does: a command word is decoded and executed or refused (30_encoding.md R66,
R75; 60_exceptions.md R152), CONSTRUCT starts a new instance, another subsystem writes a port.
-/

namespace Sys2Proof.Machine

/-- A delivered word: the command it decodes to runs whole, or the word is refused without effect and the run goes on
(60_exceptions.md R152, R156; log 5). -/
def runWord (w : CmdWord) (s : State) : Host.Outcome State Fault Refusal :=
  match decode w with
  | .command i => exec i s
  | .refuse r => .next (s.refuseWord w r)

/-- One event, taken from the head of the host's list. -/
def deliver (e : Event) (rest : List Event) (s : State) : Host.Outcome State Fault Refusal :=
  match e with
  | .command w => runWord w (s.takeCommand rest)
  | .construct c => construct c (s.takeOther rest)
  | .external r p mask value => externalEvent r p mask value (s.takeOther rest)

end Sys2Proof.Machine
end

