-- ==== Sys2Proof/Machine/Step.lean ====
section
/-!
DEFINITION. One step: the next event of the host's list, or nothing while the host is idle.
-/

namespace Sys2Proof.Machine

/-- One step. While the host issues nothing, no command runs and all state survives unchanged (60_exceptions.md R164;
log 4). -/
def step (s : State) : Host.Outcome State Fault Refusal :=
  match s.pending with
  | [] => .next s
  | e :: rest => deliver e rest s

/-- The state with this table word as the next event of the host's list (log 3). -/
def State.withFetchWord (s : State) (nbits w : Nat) : State := s.deliverNext (tableWord nbits w)

end Sys2Proof.Machine
end

