-- ==== Sys2Proof/Machine/Pseudo.lean ====
section
/-!
DEFINITION. The pseudo-instructions and their expansions (30_encoding.md R77).
-/

namespace Sys2Proof

/-- `SETSTR "text", len` as a command: unused bytes of DATA are 0 (30_encoding.md R76). -/
def setstrOf (text : List Byte) (len : Nat) : Instr :=
  .setstr len (text.getD 0 0) (text.getD 1 0) (text.getD 2 0) (text.getD 3 0)

/-- A pseudo-instruction (30_encoding.md R77). -/
inductive Pseudo where
  | setstr (text : List Byte)
  | clrdp
  | clear
  | showText (text : List Byte)
  | refresh (n : Nat)
  deriving DecidableEq, Repr

/-- The real commands a pseudo-instruction stands for (30_encoding.md R77). -/
def expandPseudo : Pseudo → List Instr
  | .setstr text => [setstrOf text text.length]
  | .clrdp => [.setdp false]
  | .clear => [setstrOf [0x20, 0x20, 0x20, 0x20] 4]
  | .showText text => [setstrOf [0x20, 0x20, 0x20, 0x20] 4, setstrOf text text.length]
  | .refresh n => List.replicate n .advance

end Sys2Proof
end

