-- ==== Sys2Proof/Machine/Assembler.lean ====
section
/-!
DEFINITION. The assembly syntax (30_encoding.md R76) with the pseudo-instructions (R77): one command per line, a mnemonic, then
comma-separated operands; `;` starts a comment. Choices R76 leaves open are log 15.
-/

namespace Sys2Proof

/-- What the assembler reports (30_encoding.md R76). -/
inductive AsmError where
  /-- a character that starts no token -/
  | badCharacter
  /-- a text literal without its closing quote -/
  | openText
  /-- an escape other than `\"`, `\\` and `\xHH` -/
  | badEscape
  /-- no such mnemonic -/
  | badMnemonic
  /-- the operands do not fit the mnemonic -/
  | badOperands
  /-- a literal of more than 4 bytes -/
  | textTooLong
  /-- a length outside 0..7 -/
  | lenRange
  /-- an integer outside the 32-bit range -/
  | intRange
  /-- a SETDP operand other than 0 or 1 -/
  | dpRange
  /-- REFRESH of fewer than one -/
  | refreshRange
  deriving DecidableEq, Repr

/-- The tokens of a line. -/
inductive Token where
  | word (cs : List Char)
  | text (bs : List Byte)
  | comma
  deriving DecidableEq, Repr

/-- Where the lexer stands; a word or a text is held in reverse. -/
inductive LexMode where
  | between
  | inWord (cs : List Char)
  | inText (bs : List Byte)
  | escape (bs : List Byte)
  | hexHigh (bs : List Byte)
  | hexLow (bs : List Byte) (high : Nat)
  deriving DecidableEq, Repr

/-- The value of a hex digit of either case. -/
def hexDigit (c : Char) : Option Nat :=
  if '0' ≤ c ∧ c ≤ '9' then some (c.toNat - 48)
  else if 'a' ≤ c ∧ c ≤ 'f' then some (c.toNat - 87)
  else if 'A' ≤ c ∧ c ≤ 'F' then some (c.toNat - 55)
  else none

/-- A letter, a digit or a minus sign: a character of a mnemonic or a number. -/
def isWordChar (c : Char) : Bool :=
  decide ('0' ≤ c ∧ c ≤ '9') || decide ('a' ≤ c ∧ c ≤ 'z') || decide ('A' ≤ c ∧ c ≤ 'Z') || c == '-'

/-- The tokens of a line; the tokens read so far are held in reverse. A text character is one byte of its ASCII code, with
the escapes of 30_encoding.md R76. -/
def lexLine : LexMode → List Token → List Char → Except AsmError (List Token)
  | .between, acc, [] => .ok acc.reverse
  | .inWord cs, acc, [] => .ok (.word cs.reverse :: acc).reverse
  | _, _, [] => .error .openText
  | .between, acc, c :: rest =>
    if c = ' ' ∨ c = '\t' then lexLine .between acc rest
    else if c = ';' then .ok acc.reverse
    else if c = ',' then lexLine .between (.comma :: acc) rest
    else if c = '"' then lexLine (.inText []) acc rest
    else if isWordChar c then lexLine (.inWord [c]) acc rest
    else .error .badCharacter
  | .inWord cs, acc, c :: rest =>
    if c = ' ' ∨ c = '\t' then lexLine .between (.word cs.reverse :: acc) rest
    else if c = ';' then .ok (.word cs.reverse :: acc).reverse
    else if c = ',' then lexLine .between (.comma :: .word cs.reverse :: acc) rest
    else if isWordChar c then lexLine (.inWord (c :: cs)) acc rest
    else .error .badCharacter
  | .inText bs, acc, c :: rest =>
    if c = '"' then lexLine .between (.text bs.reverse :: acc) rest
    else if c = '\\' then lexLine (.escape bs) acc rest
    else if c.toNat < 128 then lexLine (.inText (BitVec.ofNat 8 c.toNat :: bs)) acc rest
    else .error .badCharacter
  | .escape bs, acc, c :: rest =>
    if c = '"' ∨ c = '\\' then lexLine (.inText (BitVec.ofNat 8 c.toNat :: bs)) acc rest
    else if c = 'x' then lexLine (.hexHigh bs) acc rest
    else .error .badEscape
  | .hexHigh bs, acc, c :: rest =>
    match hexDigit c with
    | some h => lexLine (.hexLow bs h) acc rest
    | none => .error .badEscape
  | .hexLow bs h, acc, c :: rest =>
    match hexDigit c with
    | some l => lexLine (.inText (BitVec.ofNat 8 (16 * h + l) :: bs)) acc rest
    | none => .error .badEscape

/-- The value of digits in a base, most significant first; none where a character is no digit of the base. -/
def digitsValue (base : Nat) : Nat → List Char → Option Nat
  | n, [] => some n
  | n, c :: rest =>
    match hexDigit c with
    | some d => if d < base then digitsValue base (base * n + d) rest else none
    | none => none

/-- A decimal number without a sign. Leading zeros are accepted and do not change the value: R76 is silent on them, so this is
the model's choice (DESIGN CHOICE, log 15). -/
def decimalValue : List Char → Option Nat
  | [] => none
  | cs => digitsValue 10 0 cs

/-- The operand of SETINT: decimal with an optional leading '-', or 0x-hex, which gives the DATA bits directly
(30_encoding.md R76). -/
def integerOperand : List Char → Except AsmError Int
  | '0' :: 'x' :: c :: cs =>
    match digitsValue 16 0 (c :: cs) with
    | some n => if n < 2 ^ 32 then .ok (BitVec.ofNat 32 n).toInt else .error .intRange
    | none => .error .badOperands
  | '-' :: cs =>
    match decimalValue cs with
    | some n => if n ≤ 2147483648 then .ok (-(n : Int)) else .error .intRange
    | none => .error .badOperands
  | cs =>
    match decimalValue cs with
    | some n => if n ≤ 2147483647 then .ok (n : Int) else .error .intRange
    | none => .error .badOperands

/-- A text literal holds at most 4 bytes (30_encoding.md R76). -/
def withText (bs : List Byte) (k : List Instr) : Except AsmError (List Instr) :=
  if bs.length ≤ 4 then .ok k else .error .textTooLong

/-- The commands of a mnemonic without operands (30_encoding.md R76, R77). -/
def bareCommand (m : List Char) : Except AsmError (List Instr) :=
  if m = "BEGIN".toList then .ok [.begin]
  else if m = "BLANK".toList then .ok [.blank]
  else if m = "ADVANCE".toList then .ok [.advance]
  else if m = "TEST".toList then .ok [.test]
  else if m = "CLRDP".toList then .ok (expandPseudo .clrdp)
  else if m = "CLEAR".toList then .ok (expandPseudo .clear)
  else .error .badOperands

/-- The commands of a mnemonic with one number (30_encoding.md R76, R77). -/
def numberCommand (m operand : List Char) : Except AsmError (List Instr) :=
  if m = "SETINT".toList then
    match integerOperand operand with
    | .ok v => .ok [.setint v]
    | .error e => .error e
  else if m = "SETDP".toList then
    match decimalValue operand with
    | some 0 => .ok [.setdp false]
    | some 1 => .ok [.setdp true]
    | _ => .error .dpRange
  else if m = "REFRESH".toList then
    match decimalValue operand with
    | some n => if 1 ≤ n then .ok (expandPseudo (.refresh n)) else .error .refreshRange
    | none => .error .badOperands
  else .error .badOperands

/-- The commands of a mnemonic with one text (30_encoding.md R77). -/
def textCommand (m : List Char) (bs : List Byte) : Except AsmError (List Instr) :=
  if m = "SETSTR".toList then withText bs (expandPseudo (.setstr bs))
  else if m = "SHOW".toList then withText bs (expandPseudo (.showText bs))
  else .error .badOperands

/-- `SETSTR "text", len` (30_encoding.md R76). -/
def textLenCommand (m : List Char) (bs : List Byte) (len : List Char) : Except AsmError (List Instr) :=
  if m = "SETSTR".toList then
    match decimalValue len with
    | some n => if n ≤ 7 then withText bs [setstrOf bs n] else .error .lenRange
    | none => .error .badOperands
  else .error .badOperands

/-- Every mnemonic and pseudo-mnemonic, in upper case (30_encoding.md R76, R77). -/
def allMnemonics : List (List Char) :=
  ["BEGIN".toList, "BLANK".toList, "SETSTR".toList, "SETINT".toList, "SETDP".toList, "ADVANCE".toList, "TEST".toList,
   "CLRDP".toList, "CLEAR".toList, "SHOW".toList, "REFRESH".toList]

/-- The commands of a line's tokens. -/
def parseLine : List Token → Except AsmError (List Instr)
  | [] => .ok []
  | .word m :: rest =>
    if m ∈ allMnemonics then
      match rest with
      | [] => bareCommand m
      | [.word w] => numberCommand m w
      | [.text bs] => textCommand m bs
      | [.text bs, .comma, .word len] => textLenCommand m bs len
      | _ => .error .badOperands
    else .error .badMnemonic
  | _ :: _ => .error .badMnemonic

/-- The commands of one line of assembly text; an empty line has none (30_encoding.md R76). -/
def assembleLine (line : List Char) : Except AsmError (List Instr) :=
  match lexLine .between [] line with
  | .ok ts => parseLine ts
  | .error e => .error e

/-- The command words of a program, one line after another (30_encoding.md R76; 10_state.md R33). -/
def assemble : List (List Char) → Except AsmError (List CmdWord)
  | [] => .ok []
  | line :: rest =>
    match assembleLine line, assemble rest with
    | .ok is, .ok ws => .ok (is.map encode ++ ws)
    | .error e, _ => .error e
    | _, .error e => .error e

end Sys2Proof
end

