-- ==== Sys2Proof/Machine/Observe.lean ====
section
/-!
DEFINITION. What can be seen of a state from outside: pin levels (10_state.md R29), lit digits and segments, selected slots
(43_multiplex.md R136), and the observation of 60_exceptions.md R166.
-/

namespace Sys2Proof

/-- Pin `b` of port `p` belongs to the mask (40_lookup.md R86). -/
def PortMask.hasPin (m : PortMask) (p b : Nat) : Bool := (m.byte p).getLsbD b

namespace Machine.State

/-- `PORT[p][b]`; false where there is no such port. -/
def portBit (s : State) (p b : Nat) : Bool := ((s.readPort p).getD 0).getLsbD b

/-- `DIR[p][b]`; false where there is no such port. -/
def dirBit (s : State) (p b : Nat) : Bool := ((s.readDir p).getD 0).getLsbD b

/-- The level the DMC drives on a pin: none for a pin that is no output, to which the spec gives no value
(10_state.md R29, 93_implementation_defined.md I3; log 19). -/
def pinLevel (s : State) (p b : Nat) : Option Bool := if s.dirBit p b then some (s.portBit p b) else none

/-- Every pin of the mask is an output at the level. -/
def maskDriven (s : State) (m : PortMask) (level : Bool) : Bool :=
  (List.range s.config.nports).all fun p => (List.range 8).all fun b =>
    !m.hasPin p b || s.pinLevel p b == some level

/-- Some pin of the mask holds the level in PORT. -/
def maskTouched (s : State) (m : PortMask) (level : Bool) : Bool :=
  (List.range s.config.nports).any fun p => (List.range 8).any fun b =>
    m.hasPin p b && s.portBit p b == level

/-- The slot's select pins are all outputs at the active level: what a lit digit needs (10_state.md R29). -/
def digitOn (s : State) (slot : Fin 4) : Bool :=
  decide (slot.val < s.config.digits) && s.maskDriven (s.config.maskForDigit slot) s.config.pol.digitActive

/-- The segment's pins are all outputs at the active level: what a lit segment needs (10_state.md R29). -/
def segmentOn (s : State) (id : SegmentId) : Bool :=
  s.maskDriven (s.config.maskForSegment id) s.config.pol.segActive

/-- The used slot has a select bit at its active level (43_multiplex.md R136). -/
def slotActive (s : State) (slot : Fin 4) : Bool := s.maskTouched (s.config.maskForDigit slot) s.config.pol.digitActive

end Machine.State

namespace Machine

/-- What a claim may read (60_exceptions.md R166): BUF, CUR, DP, SYMCUR, the owned bits of PORT and DIR, and the trace. -/
structure Observation where
  buf : Vector Byte 4
  cur : Fin 4
  dp : Bool
  symcur : Fin 256
  ownedPort : List Byte
  ownedDir : List Byte
  trace : List PrimCall
  deriving DecidableEq, Repr

/-- The observation of a state (60_exceptions.md R166). -/
def State.observe (s : State) : Observation where
  buf := s.buf
  cur := s.cur
  dp := s.dp
  symcur := s.symcur
  ownedPort := (List.range s.config.nports).map fun p => (s.readPort p).getD 0 &&& s.config.own.byte p
  ownedDir := (List.range s.config.nports).map fun p => (s.readDir p).getD 0 &&& s.config.own.byte p
  trace := s.trace

end Machine

end Sys2Proof
end

