-- ==== Sys2Proof/Safety.lean ====
section
/-!
DEFINITION. What counts as a well-formed state and a safe run: the invariant of the state (10_state.md R20, R22, R35, R37;
20_memory.md R49, R55), the rendered and the blank pattern (40_lookup.md R107, R109), and a program's run
(60_exceptions.md R165).
-/

namespace Sys2Proof.Machine

/-- A call the DMC may make under a configuration: an existing port, a non-zero mask inside OWN
(20_memory.md R49, R55). -/
def PrimCall.owned (c : Config) : PrimCall → Bool
  | .portSet p m => decide (p < c.nports) && m != 0 && m &&& ~~~c.own.byte p == 0
  | .portClear p m => decide (p < c.nports) && m != 0 && m &&& ~~~c.own.byte p == 0
  | .dirOut p m => decide (p < c.nports) && m != 0 && m &&& ~~~c.own.byte p == 0

/-- The invariant of the state. -/
structure State.Inv (s : State) : Prop where
  /-- The configuration passed its checks (70_reset_and_hazards.md R171). -/
  admitted : s.config.admitted = true
  /-- CUR < DIGITS (10_state.md R37). -/
  cur_lt : s.cur.val < s.config.digits
  /-- SYMCUR < SYMCOUNT (10_state.md R37). -/
  symcur_lt : s.symcur.val < s.config.symcount
  /-- Every port of the configuration has its output register (20_memory.md R45). -/
  ports : s.config.nports ≤ s.port.length
  /-- Every port has both registers (20_memory.md R45). -/
  dirs : s.dir.length = s.port.length
  /-- The cells at or beyond DIGITS keep their reset value (10_state.md R22). -/
  unused_cells : ∀ i : Fin 4, s.config.digits ≤ i.val → s.buf[i] = 0x20
  /-- REFUSED is set exactly when a word of the run was refused (10_state.md R35). -/
  refused_iff : s.refused = true ↔ s.refusals ≠ []
  /-- Every recorded word is one the decoder refuses for the recorded reason (60_exceptions.md R152). -/
  refusals_true : ∀ r ∈ s.refusals, decode r.1 = .refuse r.2
  /-- Every call of the run's trace is an owned one (20_memory.md R49, R55). -/
  trace_owned : ∀ c ∈ s.trace, c.owned s.config = true

/-- At most one used slot has a select bit at its active level (43_multiplex.md R136). -/
def State.AtMostOneActive (s : State) : Prop :=
  ∀ i j : Fin 4, s.slotActive i = true → s.slotActive j = true → i = j

/-- No used slot has a select bit at its active level (43_multiplex.md R136 item 2). -/
def State.NoneActive (s : State) : Prop := ∀ i : Fin 4, s.slotActive i = false

/-- The inactive pattern (40_lookup.md R107): every digit bit at the level opposite to DA, every segment bit opposite
to SA. -/
def State.Blanked (s : State) : Prop :=
  ∀ p b, p < s.config.nports →
    (s.config.allDigitsMask.hasPin p b = true → s.portBit p b = !s.config.pol.digitActive) ∧
    (s.config.allSegmentsMask.hasPin p b = true → s.portBit p b = !s.config.pol.segActive)

/-- The rendered pattern for a slot and a segment set (40_lookup.md R109): the slot's bits active, every other used slot's
inactive, each segment's bits active exactly when it is in the set. -/
def State.Rendered (slot : Fin 4) (segs : Byte) (s : State) : Prop :=
  ∀ p b, p < s.config.nports →
    ((s.config.maskForDigit slot).hasPin p b = true → s.portBit p b = s.config.pol.digitActive) ∧
    (∀ other : Fin 4, other ≠ slot → (s.config.maskForDigit other).hasPin p b = true →
      s.portBit p b = !s.config.pol.digitActive) ∧
    (∀ id : SegmentId, (s.config.maskForSegment id).hasPin p b = true →
      s.portBit p b = if inSegs segs id then s.config.pol.segActive else !s.config.pol.segActive)

/-- Two states agree on everything the DMC does not own: the registers of ports beyond NPORTS and the bits outside OWN
(20_memory.md R49, R64). -/
def State.SameOutsideOwn (s t : State) : Prop :=
  s.port.length = t.port.length ∧ s.dir.length = t.dir.length ∧
  ∀ p b, s.config.own.hasPin p b = false → t.portBit p b = s.portBit p b ∧ t.dirBit p b = s.dirBit p b

/-- Two states agree on what no command writes: the configuration, the record of refused words and the host's list
(10_state.md R20, R30; 60_exceptions.md R152). -/
def State.SameRecord (s t : State) : Prop :=
  t.config = s.config ∧ t.refused = s.refused ∧ t.refusals = s.refusals ∧ t.pending = s.pending ∧ t.pos = s.pos

/-- Commands executed one after the other, to completion, in order (20_memory.md R60). -/
def execAll : List Instr → State → Host.Outcome State Fault Refusal
  | [], s => .next s
  | i :: is, s =>
    match exec i s with
    | .next t => execAll is t
    | .fault f => .fault f
    | .refused r => .refused r

/-- A run: a finite list of command words issued in order, to the end of the last one (60_exceptions.md R165). -/
def runProgram (ws : List CmdWord) (s : State) : Host.Outcome State Fault Refusal :=
  Host.Core.run Sys2Proof.core ws.length { s with pending := ws.map Event.command }

/-- A list of command words each of which decodes (30_encoding.md R67). -/
def Decodable (ws : List CmdWord) : Prop := ∀ w ∈ ws, ∃ i, decode w = .command i

/-- A run a claim may be about: it ends in a next state with REFUSED = 0 (60_exceptions.md R152, R166). -/
def SafeRun (ws : List CmdWord) (s : State) : Prop := ∃ t, runProgram ws s = .next t ∧ t.refused = false

end Sys2Proof.Machine
end

