-- ==== Sys2Proof/Certificates/Slice0/Obligations.lean ====
section
/-!
DEFINITION. The statements for the provers, file by file of spec/. A docstring names the rule a statement follows; a statement
that rests on a choice of the model names the log entry.
-/

open Sys2Proof Sys2Proof.Machine

/-! ### Encoding (30_encoding.md) -/

/-- R73: the rows of the opcode map, a word is the command of a row exactly when it matches, and the rows are disjoint. -/
def Obligations.WordIsItsRowsCommand : Prop :=
  (opcodeRow .begin = ⟨0x010000000000, 0xFFFFFFFFFFFF⟩ ∧ opcodeRow .blank = ⟨0x020000000000, 0xFFFFFFFFFFFF⟩ ∧
    (∀ l a b c d, opcodeRow (.setstr l a b c d) = ⟨0x030000000000, 0xFFF800000000⟩) ∧
    (∀ v, opcodeRow (.setint v) = ⟨0x040000000000, 0xFFFF00000000⟩) ∧
    (∀ en, opcodeRow (.setdp en) = ⟨0x050000000000, 0xFFFEFFFFFFFF⟩) ∧
    opcodeRow .advance = ⟨0x060000000000, 0xFFFFFFFFFFFF⟩ ∧ opcodeRow .test = ⟨0x070000000000, 0xFFFFFFFFFFFF⟩) ∧
  (∀ w i, decode w = .command i → (opcodeRow i).accepts w = true) ∧
  (∀ w, ∀ r ∈ opcodeRows, r.accepts w = true → ∃ i, decode w = .command i ∧ opcodeRow i = r) ∧
  (∀ w, ∀ r ∈ opcodeRows, ∀ r' ∈ opcodeRows, r.accepts w = true → r'.accepts w = true → r = r')

/-- R74, R154, R155: which words are refused, and for which of the two reasons; the opcode is tested first. -/
def Obligations.MalformedWordsAreRefusedByReason : Prop :=
  (∀ w, decode w = .refuse .refOpcode ↔ (opField w).toNat = 0 ∨ 8 ≤ (opField w).toNat) ∧
  (∀ w, decode w = .refuse .refField ↔
    (1 ≤ (opField w).toNat ∧ (opField w).toNat ≤ 7) ∧ ∀ r ∈ opcodeRows, r.accepts w = false)

/-- Every well-formed command survives its encoding, with every operand at every value (R65..R73, R75). -/
def Obligations.DecodeOfEncode : Prop := ∀ i : Instr, i.wellFormed = true → decode (encode i) = .command i

/-- A word that decodes is the encoding of its command, which is well-formed: no bit of a word is dropped (R65..R75). -/
def Obligations.EncodeOfDecode : Prop :=
  ∀ w i, decode w = .command i → i.wellFormed = true ∧ encode i = w

/-- R78: the sample commands, from their assembly text to OP, ARG, DATA and the word, and the refused words. -/
def Obligations.SampleWordsOfTheSpec : Prop :=
  (∀ r ∈ ([("BEGIN", 0x01, 0x00, 0x00000000, 0x010000000000), ("BLANK", 0x02, 0x00, 0x00000000, 0x020000000000),
      ("SETSTR \"8\", 1", 0x03, 0x01, 0x00000038, 0x030100000038),
      ("SETSTR \"hi\", 2", 0x03, 0x02, 0x00006968, 0x030200006968),
      ("SETSTR \"xyz\", 3", 0x03, 0x03, 0x007A7978, 0x0303007A7978),
      ("SETSTR \"1234\", 4", 0x03, 0x04, 0x34333231, 0x030434333231),
      ("SETSTR \"    \", 4", 0x03, 0x04, 0x20202020, 0x030420202020), ("CLEAR", 0x03, 0x04, 0x20202020, 0x030420202020),
      ("SETINT 0", 0x04, 0x00, 0x00000000, 0x040000000000), ("SETINT -5", 0x04, 0x00, 0xFFFFFFFB, 0x0400FFFFFFFB),
      ("SETINT 1234", 0x04, 0x00, 0x000004D2, 0x0400000004D2), ("SETDP 1", 0x05, 0x01, 0x00000000, 0x050100000000),
      ("SETDP 0", 0x05, 0x00, 0x00000000, 0x050000000000), ("CLRDP", 0x05, 0x00, 0x00000000, 0x050000000000),
      ("ADVANCE", 0x06, 0x00, 0x00000000, 0x060000000000), ("TEST", 0x07, 0x00, 0x00000000, 0x070000000000)] :
      List (String × BitVec 8 × BitVec 8 × BitVec 32 × CmdWord)),
    assemble [r.1.toList] = .ok [r.2.2.2.2] ∧ opField r.2.2.2.2 = r.2.1 ∧ argField r.2.2.2.2 = r.2.2.1 ∧
      dataField r.2.2.2.2 = r.2.2.2.1) ∧
  decode 0x000000000000 = .refuse .refOpcode ∧ decode 0x080000000000 = .refuse .refOpcode ∧
  decode 0x060100000000 = .refuse .refField ∧ decode 0x030800000000 = .refuse .refField ∧
  decode 0x050000000001 = .refuse .refField

/-! ### Lookups (40_lookup.md) -/

/-- R88, R89: the mask of a slot, and the aggregate masks as unions, byte by byte. -/
def Obligations.DigitAndAggregateMasks : Prop :=
  (∀ (c : Config) (s : Fin 4), (s.val < c.digits → c.maskForDigit s = c.digMask[s]) ∧
    (c.digits ≤ s.val → c.maskForDigit s = List.replicate c.nports 0#8)) ∧
  (∀ (c : Config) (p : Nat),
    c.allSegmentsMask.byte p = c.segMask[0].byte p ||| c.segMask[1].byte p ||| c.segMask[2].byte p |||
      c.segMask[3].byte p ||| c.segMask[4].byte p ||| c.segMask[5].byte p ||| c.segMask[6].byte p |||
      c.segMask[7].byte p ∧
    c.allDigitsMask.byte p = (c.maskForDigit 0).byte p ||| (c.maskForDigit 1).byte p ||| (c.maskForDigit 2).byte p |||
      (c.maskForDigit 3).byte p ∧
    c.own.byte p = c.allSegmentsMask.byte p ||| c.allDigitsMask.byte p)

/-- R90, R96, R171: what the checks of CONSTRUCT admit, in terms of the numbers in CFG, of pins and of table entries. -/
def Obligations.AdmittedConfigurations : Prop :=
  ∀ c : Config, c.admitted = true ↔
    -- K1, K2
    (1 ≤ c.cfg.toNat % 8 ∧ c.cfg.toNat % 8 ≤ 4) ∧ c.cfg.toNat < 32 ∧
    -- M1
    (1 ≤ c.nports ∧ (∀ k : Fin 8, (c.segMask[k]).length = c.nports) ∧ ∀ k : Fin 4, (c.digMask[k]).length = c.nports) ∧
    -- M2, M3
    (∀ k : Fin 8, ∃ p b, (c.segMask[k]).hasPin p b = true) ∧
    (∀ k l : Fin 8, k ≠ l → ∀ p b, ¬((c.segMask[k]).hasPin p b = true ∧ (c.segMask[l]).hasPin p b = true)) ∧
    -- M4, M5
    (∀ k : Fin 4, k.val < c.cfg.toNat % 8 → ∃ p b, (c.digMask[k]).hasPin p b = true) ∧
    (∀ k l : Fin 4, k ≠ l → k.val < c.cfg.toNat % 8 → l.val < c.cfg.toNat % 8 →
      ∀ p b, ¬((c.digMask[k]).hasPin p b = true ∧ (c.digMask[l]).hasPin p b = true)) ∧
    -- M6
    (∀ (k : Fin 8) (l : Fin 4), l.val < c.cfg.toNat % 8 →
      ∀ p b, ¬((c.segMask[k]).hasPin p b = true ∧ (c.digMask[l]).hasPin p b = true)) ∧
    -- S1
    (1 ≤ c.symtab.length ∧ c.symtab.length ≤ 256) ∧
    -- S2
    (∀ g : Byte, (0x30 ≤ g.toNat ∧ g.toNat ≤ 0x39) ∨ (0x61 ≤ g.toNat ∧ g.toNat ≤ 0x66) ∨ g = 0x2D ∨ g = 0x20 →
      ∃ e ∈ c.symtab, e.glyph = g) ∧
    -- S3, S4
    c.segmentsFor 0x20 = 0x00 ∧
    (∀ e ∈ c.symtab, e.glyph ≠ 0x78 ∧ e.glyph ≠ 0x79 ∧ e.glyph ≠ 0x7A)

/-- R93: the first entry with the glyph, exactly compared, and the blank set where there is none. -/
def Obligations.SegmentsForIsTheFirstMatch : Prop :=
  ∀ (c : Config) (g : Byte),
    (∀ (k : Nat) (e : SymEntry), c.symtab[k]? = some e → e.glyph = g →
      (∀ (j : Nat) (e' : SymEntry), j < k → c.symtab[j]? = some e' → e'.glyph ≠ g) →
      c.segmentsFor g = e.segs) ∧
    ((∀ e ∈ c.symtab, e.glyph ≠ g) → c.segmentsFor g = 0x00)

/-- R97: the default table, glyph by glyph; every other byte renders blank, no entry includes DP, and the table passes
S1..S4 whatever the rest of the configuration is. -/
def Obligations.DefaultSymbolTable : Prop :=
  defaultSymtab.map (fun e => (e.glyph, e.segs)) =
    [(0x30, 0x3F), (0x31, 0x06), (0x32, 0x5B), (0x33, 0x4F), (0x34, 0x66), (0x35, 0x6D), (0x36, 0x7D), (0x37, 0x07),
     (0x38, 0x7F), (0x39, 0x6F), (0x61, 0x77), (0x62, 0x7C), (0x63, 0x39), (0x64, 0x5E), (0x65, 0x79), (0x66, 0x71),
     (0x68, 0x74), (0x69, 0x10), (0x2D, 0x40), (0x20, 0x00)] ∧
  (∀ c : ConstructInput, c.symtab = none → c.config.symtab = defaultSymtab) ∧
  (∀ g : Byte, g ∉ defaultSymtab.map (fun e => e.glyph) → segmentsIn defaultSymtab g = 0x00) ∧
  (∀ e ∈ defaultSymtab, inSegs e.segs .dp = false) ∧
  (∀ c : Config, c.symtab = defaultSymtab →
    ∀ k ∈ [ConfigCheck.s1, ConfigCheck.s2, ConfigCheck.s3, ConfigCheck.s4], k.holds c = true)

/-- R99, R100, R101: the levels of the two axes, asserted and not, for each polarity. -/
def Obligations.PolarityLevels : Prop :=
  (Polarity.ca.digitActive = true ∧ Polarity.ca.segActive = false) ∧
  (Polarity.cc.digitActive = false ∧ Polarity.cc.segActive = true) ∧
  (Polarity.caid.digitActive = false ∧ Polarity.caid.segActive = false) ∧
  (Polarity.ccid.digitActive = true ∧ Polarity.ccid.segActive = true) ∧
  (∀ pol, digitLevel pol true = pol.digitActive ∧ digitLevel pol false = !pol.digitActive) ∧
  (∀ pol, segLevel pol true = pol.segActive ∧ segLevel pol false = !pol.segActive)

/-! ### Ports (20_memory.md) -/

/-- R50, R51, R52: each primitive on the register it names, on the other register, on every other port, and its record in
the trace (00_scope.md R17). -/
def Obligations.PrimitiveCalls : Prop :=
  ∀ (s : State) (p : Nat) (m : Byte) (o d : Byte), s.readPort p = some o → s.readDir p = some d →
    ((s.perform (.portSet p m)).readPort p = some (o ||| m) ∧ (s.perform (.portSet p m)).readDir p = some d ∧
      (s.perform (.portSet p m)).trace = s.trace ++ [.portSet p m]) ∧
    ((s.perform (.portClear p m)).readPort p = some (o &&& ~~~m) ∧ (s.perform (.portClear p m)).readDir p = some d ∧
      (s.perform (.portClear p m)).trace = s.trace ++ [.portClear p m]) ∧
    ((s.perform (.dirOut p m)).readDir p = some (d ||| m) ∧ (s.perform (.dirOut p m)).readPort p = some o ∧
      (s.perform (.dirOut p m)).trace = s.trace ++ [.dirOut p m]) ∧
    ∀ c ∈ [PrimCall.portSet p m, .portClear p m, .dirOut p m], ∀ q, q ≠ p →
      (s.perform c).readPort q = s.readPort q ∧ (s.perform c).readDir q = s.readDir q

/-- R103: a drive makes one call per port below NPORTS with a non-zero byte, in ascending port order, of the kind its level
asks for; afterwards every bit of the mask has the level and every other bit is unchanged. -/
def Obligations.DriveGroupWritesTheMask : Prop :=
  ∀ (s : State) (m : PortMask) (level : Bool), s.config.nports ≤ s.port.length →
    (∃ cs, (s.driveGroup m level).trace = s.trace ++ cs ∧
      ∃ ps : List Nat, ps.Pairwise (· < ·) ∧ (∀ p, p ∈ ps ↔ p < s.config.nports ∧ m.byte p ≠ 0) ∧
        cs = ps.map (fun p => if level then .portSet p (m.byte p) else .portClear p (m.byte p))) ∧
    (∀ p b, p < s.config.nports →
      (s.driveGroup m level).portBit p b = if m.hasPin p b then level else s.portBit p b) ∧
    (∀ p, s.config.nports ≤ p → (s.driveGroup m level).readPort p = s.readPort p) ∧
    (s.driveGroup m level).dir = s.dir

/-- R49: every call of every command has a mask inside OWN of its port, and no command changes a bit of PORT or DIR outside
OWN; R55: no call has a zero mask. -/
def Obligations.CommandsStayInsideOwn : Prop :=
  ∀ (i : Instr) (s : State), ∃ t cs, exec i s = .next t ∧ t.trace = s.trace ++ cs ∧
    (∀ c ∈ cs, ∃ p m, (c = .portSet p m ∨ c = .portClear p m ∨ c = .dirOut p m) ∧
      p < s.config.nports ∧ m ≠ 0 ∧ m &&& ~~~(s.config.own.byte p) = 0) ∧
    s.SameOutsideOwn t

/-- R64 with log 9 and log 25: a write of another subsystem to an owned bit is outside the model, one to a port that does
not exist is the model's fault, and any other changes exactly the bits it names. -/
def Obligations.ExternalWrites : Prop :=
  ∀ (s : State) (r : PortReg) (p : Nat) (mask value : Byte) (rest : List Event),
    s.pending = .external r p mask value :: rest → s.dir.length = s.port.length →
    (s.port.length ≤ p → step s = .fault (.noSuchPort p)) ∧
    (p < s.port.length → mask &&& s.config.own.byte p ≠ 0 → step s = .refused (.ownedWrite p mask)) ∧
    (p < s.port.length → mask &&& s.config.own.byte p = 0 →
      ∃ t, step s = .next t ∧
        (∀ q b, t.portBit q b = if r = .out ∧ q = p ∧ mask.getLsbD b = true then value.getLsbD b else s.portBit q b) ∧
        (∀ q b, t.dirBit q b = if r = .dir ∧ q = p ∧ mask.getLsbD b = true then value.getLsbD b else s.dirBit q b) ∧
        t = { s with port := t.port, dir := t.dir, pending := rest } ∧
        t.port.length = s.port.length ∧ t.dir.length = s.dir.length)

/-- R64, R166: what other subsystems may write is never part of the observation. -/
def Obligations.ExternalWritesAreUnobserved : Prop :=
  ∀ (s t : State) (r : PortReg) (p : Nat) (mask value : Byte) (rest : List Event),
    s.pending = .external r p mask value :: rest → step s = .next t → t.observe = s.observe

/-! ### Initialisation and blanking (41_init_blank.md) -/

/-- R110: BEGIN completes in every state; the owned pins become outputs, the owned bits of PORT are inactive, and nothing
else changes. -/
def Obligations.BeginResult : Prop :=
  ∀ s : State, s.Inv → ∃ t, exec .begin s = .next t ∧
    (∀ p b, t.dirBit p b = (s.dirBit p b || s.config.own.hasPin p b)) ∧ t.Blanked ∧ s.SameOutsideOwn t ∧
    s.SameRecord t ∧ t.buf = s.buf ∧ t.cur = s.cur ∧ t.dp = s.dp ∧ t.symcur = s.symcur

/-- R110: the calls of BEGIN: the outputs port by port, then the digits, then the segments (per-call form of I7, log 13). -/
def Obligations.BeginTrace : Prop :=
  ∀ s : State, ∃ t outs digits segs, exec .begin s = .next t ∧ t.trace = s.trace ++ outs ++ digits ++ segs ∧
    outs = ((List.range s.config.nports).filter (fun p => s.config.own.byte p != 0)).map
      (fun p => PrimCall.dirOut p (s.config.own.byte p)) ∧
    digits = ((List.range s.config.nports).filter (fun p => s.config.allDigitsMask.byte p != 0)).map
      (fun p => if s.config.pol.digitActive then PrimCall.portClear p (s.config.allDigitsMask.byte p)
        else .portSet p (s.config.allDigitsMask.byte p)) ∧
    segs = ((List.range s.config.nports).filter (fun p => s.config.allSegmentsMask.byte p != 0)).map
      (fun p => if s.config.pol.segActive then PrimCall.portClear p (s.config.allSegmentsMask.byte p)
        else .portSet p (s.config.allSegmentsMask.byte p))

/-- R112, R107, R113 item 2: BLANK completes in every state, leaves every owned bit at the inactive level of its axis, and
changes nothing else. -/
def Obligations.BlankResult : Prop :=
  ∀ s : State, s.Inv → ∃ t, exec .blank s = .next t ∧ t.Blanked ∧ s.SameOutsideOwn t ∧ s.SameRecord t ∧
    t.dir = s.dir ∧ t.buf = s.buf ∧ t.cur = s.cur ∧ t.dp = s.dp ∧ t.symcur = s.symcur

/-- R112, R106: the calls of BLANK: the digits port by port, then the segments (per-call form of I7, log 13). -/
def Obligations.BlankTrace : Prop :=
  ∀ s : State, ∃ t digits segs, exec .blank s = .next t ∧ t.trace = s.trace ++ digits ++ segs ∧
    digits = ((List.range s.config.nports).filter (fun p => s.config.allDigitsMask.byte p != 0)).map
      (fun p => if s.config.pol.digitActive then PrimCall.portClear p (s.config.allDigitsMask.byte p)
        else .portSet p (s.config.allDigitsMask.byte p)) ∧
    segs = ((List.range s.config.nports).filter (fun p => s.config.allSegmentsMask.byte p != 0)).map
      (fun p => if s.config.pol.segActive then PrimCall.portClear p (s.config.allSegmentsMask.byte p)
        else .portSet p (s.config.allSegmentsMask.byte p))

/-- R111: a BEGIN after any sequence of commands leaves PORT and DIR as the first BEGIN leaves them. -/
def Obligations.BeginIsIdempotent : Prop :=
  ∀ (s s1 : State) (is : List Instr), s.Inv → exec .begin s = .next s1 →
    ∃ u t, execAll is s1 = .next u ∧ exec .begin u = .next t ∧ t.dir = s1.dir ∧ t.port = s1.port ∧ t.Blanked

/-- R113 item 1: a second BLANK changes neither register. -/
def Obligations.BlankIsIdempotent : Prop :=
  ∀ (s s1 : State), exec .blank s = .next s1 → ∃ t, exec .blank s1 = .next t ∧ t.port = s1.port ∧ t.dir = s1.dir

/-- R181: after BLANK no owned output is at an active level, so no digit and no segment is on. -/
def Obligations.NothingIsLitAfterBlank : Prop :=
  ∀ s : State, s.Inv → ∃ t, exec .blank s = .next t ∧
    (∀ p b, s.config.allDigitsMask.hasPin p b = true → t.pinLevel p b ≠ some s.config.pol.digitActive) ∧
    (∀ p b, s.config.allSegmentsMask.hasPin p b = true → t.pinLevel p b ≠ some s.config.pol.segActive) ∧
    (∀ slot, t.digitOn slot = false) ∧ (∀ id, t.segmentOn id = false)

/-- R179: after BLANK, at every point of a following BEGIN's trace every owned bit is inactive, so the BEGIN window shows
nothing (per-call form of I7, log 13). -/
def Obligations.BlankClosesTheBeginWindow : Prop :=
  ∀ s s1 : State, s.Inv → exec .blank s = .next s1 →
    ∃ cs, exec .begin s1 = .next (s1.performAll cs) ∧ ∀ n, (s1.performAll (cs.take n)).Blanked

/-! ### Content commands (42_content.md) -/

/-- R120, R121: SETSTR completes in every state and writes cells 0..min(LEN, DIGITS)-1 and nothing else. -/
def Obligations.SetstrResult : Prop :=
  ∀ (s : State) (len : Nat) (c0 c1 c2 c3 : Byte), ∃ t, exec (.setstr len c0 c1 c2 c3) s = .next t ∧
    (∀ i : Fin 4, t.buf[i] = if i.val < len ∧ i.val < s.config.digits then [c0, c1, c2, c3].getD i.val 0 else s.buf[i]) ∧
    t = { s with buf := t.buf }

/-- R123, R124: SETINT completes in every state and writes the leading characters of the decimal text and nothing else. -/
def Obligations.SetintResult : Prop :=
  ∀ (s : State) (v : Int), ∃ t, exec (.setint v) s = .next t ∧
    (∀ i : Fin 4, t.buf[i] =
      if i.val < (dec v).length ∧ i.val < s.config.digits then (dec v).getD i.val 0 else s.buf[i]) ∧
    t = { s with buf := t.buf }

/-- R122: the decimal text is the number: decimal digits without a leading zero whose value is |v|, after '-' for a negative
v, and "0" for zero; 1 to 11 bytes for a 32-bit v. (The rule adds that 11 bytes occur only for the least v; its own
pseudocode gives 11 bytes for every v at or below -1000000000, and that is stated here: log 24.) -/
def Obligations.DecimalText : Prop :=
  dec 0 = [0x30] ∧
  (∀ v : Int, 0 < v →
    (∀ x ∈ dec v, 0x30 ≤ x.toNat ∧ x.toNat ≤ 0x39) ∧ (dec v).head? ≠ some 0x30 ∧ dec v ≠ [] ∧
    (((dec v).foldl (fun n x => 10 * n + (x.toNat - 0x30)) 0 : Nat) : Int) = v) ∧
  (∀ v : Int, v < 0 → dec v = 0x2D :: dec (-v)) ∧
  (∀ v : Int, -2147483648 ≤ v → v ≤ 2147483647 →
    1 ≤ (dec v).length ∧ (dec v).length ≤ 11 ∧ ((dec v).length = 11 ↔ v ≤ -1000000000))

/-- R125: SETDP completes in every state and writes DP alone. -/
def Obligations.SetdpResult : Prop :=
  ∀ (s : State) (en : Bool), exec (.setdp en) s = .next { s with dp := en }

/-- R77: SHOW leaves the text padded with spaces in the used cells, whatever they held, and nothing else changed. -/
def Obligations.ShowPadsTheText : Prop :=
  ∀ (s : State) (text : List Byte), text.length ≤ 4 → ∃ t, execAll (expandPseudo (.showText text)) s = .next t ∧
    (∀ i : Fin 4, t.buf[i] = if i.val < s.config.digits then text.getD i.val 0x20 else s.buf[i]) ∧
    t = { s with buf := t.buf }

/-! ### Multiplexing (43_multiplex.md) -/

/-- R135, R109, R136 item 3: ADVANCE completes in every state of the invariant; PORT is the rendered pattern of the slot CUR
and its glyph, with DP added on the last slot when the flag is on; CUR moves; nothing else changes. -/
def Obligations.AdvanceResult : Prop :=
  ∀ s : State, s.Inv → ∃ t, exec .advance s = .next t ∧
    t.Rendered s.cur (s.config.segmentsFor s.buf[s.cur] |||
      (if s.cur.val = s.config.digits - 1 ∧ s.dp = true then 0x80 else 0x00)) ∧
    t.cur.val = (s.cur.val + 1) % s.config.digits ∧ s.SameOutsideOwn t ∧ s.SameRecord t ∧
    t.dir = s.dir ∧ t.buf = s.buf ∧ t.dp = s.dp ∧ t.symcur = s.symcur

/-- R138: TEST completes in every state of the invariant; PORT is the rendered pattern of the slot CUR and the table's entry
SYMCUR, whatever BUF and DP hold; both cursors move (CUR only under the default of TEST_ADVANCES_CUR, D20); nothing
else changes. -/
def Obligations.TestResult : Prop :=
  ∀ s : State, s.Inv → ∃ t e, exec .test s = .next t ∧ s.config.symtab[s.symcur.val]? = some e ∧
    t.Rendered s.cur e.segs ∧
    t.cur.val = (if s.config.testAdvancesCur then (s.cur.val + 1) % s.config.digits else s.cur.val) ∧
    t.symcur.val = (s.symcur.val + 1) % s.config.symcount ∧ s.SameOutsideOwn t ∧ s.SameRecord t ∧
    t.dir = s.dir ∧ t.buf = s.buf ∧ t.dp = s.dp

/-- R135: the calls of ADVANCE: blank, then the glyph's segments in ascending order, then DP when it fires, then the
slot (per-call form of I7, log 13). -/
def Obligations.AdvanceTrace : Prop :=
  ∀ s : State, ∃ t, exec .advance s = .next t ∧
    t.trace = s.trace ++
      (groupCalls s.config.nports s.config.allDigitsMask (!s.config.pol.digitActive) ++
       groupCalls s.config.nports s.config.allSegmentsMask (!s.config.pol.segActive)) ++
      ((([SegmentId.a, .b, .c, .d, .e, .f, .g, .dp].filter (inSegs (s.config.segmentsFor s.buf[s.cur]))) ++
        (if s.cur.val + 1 = s.config.digits ∧ s.dp = true then [SegmentId.dp] else [])).flatMap
          (fun id => groupCalls s.config.nports (s.config.maskForSegment id) s.config.pol.segActive)) ++
      groupCalls s.config.nports (s.config.maskForDigit s.cur) s.config.pol.digitActive

/-- R138: the calls of TEST: blank, then the segments of the table's entry SYMCUR in ascending order, then the slot; the
decimal point flag adds none (per-call form of I7, log 13). -/
def Obligations.TestTrace : Prop :=
  ∀ (s : State) (e : SymEntry), s.config.symtab[s.symcur.val]? = some e → ∃ t, exec .test s = .next t ∧
    t.trace = s.trace ++
      (groupCalls s.config.nports s.config.allDigitsMask (!s.config.pol.digitActive) ++
       groupCalls s.config.nports s.config.allSegmentsMask (!s.config.pol.segActive)) ++
      (([SegmentId.a, .b, .c, .d, .e, .f, .g, .dp].filter (inSegs e.segs)).flatMap
          (fun id => groupCalls s.config.nports (s.config.maskForSegment id) s.config.pol.segActive)) ++
      groupCalls s.config.nports (s.config.maskForDigit s.cur) s.config.pol.digitActive

/-- R136 items 1 and 2: from a state in which at most one slot is active, at every point of the trace of an ADVANCE at most
one is, and at every point where a segment is about to be lit none is (per-call form of I7, log 13). -/
def Obligations.AdvanceNeverGhosts : Prop :=
  ∀ s : State, s.Inv → s.AtMostOneActive → ∃ t blank light select, exec .advance s = .next t ∧
    t.trace = s.trace ++ (blank ++ light ++ select) ∧
    t.port = (s.performAll (blank ++ light ++ select)).port ∧
    (∀ n, (s.performAll ((blank ++ light ++ select).take n)).AtMostOneActive) ∧
    (∀ n, n ≤ light.length → (s.performAll (blank ++ light.take n)).NoneActive) ∧
    (s.performAll blank).Blanked ∧
    (∀ c ∈ select, ∃ p m, (c = .portSet p m ∨ c = .portClear p m) ∧
      m = (s.config.maskForDigit s.cur).byte p)

/-- R139 item 6: the same for TEST (per-call form of I7, log 13). -/
def Obligations.TestNeverGhosts : Prop :=
  ∀ s : State, s.Inv → s.AtMostOneActive → ∃ t blank light select, exec .test s = .next t ∧
    t.trace = s.trace ++ (blank ++ light ++ select) ∧
    t.port = (s.performAll (blank ++ light ++ select)).port ∧
    (∀ n, (s.performAll ((blank ++ light ++ select).take n)).AtMostOneActive) ∧
    (∀ n, n ≤ light.length → (s.performAll (blank ++ light.take n)).NoneActive) ∧
    (s.performAll blank).Blanked ∧
    (∀ c ∈ select, ∃ p m, (c = .portSet p m ∨ c = .portClear p m) ∧
      m = (s.config.maskForDigit s.cur).byte p)

/-- R136: the premise of the ordering guarantees holds after BEGIN, BLANK, ADVANCE and TEST, and every command keeps it. -/
def Obligations.AtMostOneSlotStaysActive : Prop :=
  ∀ (i : Instr) (s : State), s.Inv → ∃ t, exec i s = .next t ∧
    (i = .begin ∨ i = .blank ∨ i = .advance ∨ i = .test ∨ s.AtMostOneActive → t.AtMostOneActive) ∧
    (i = .begin ∨ i = .blank → t.NoneActive)

/-- R140 item 1: DIGITS consecutive ADVANCE commands bring CUR back, and the k-th of them renders slot CUR+k mod DIGITS,
each used slot exactly once. -/
def Obligations.FullAdvanceCycle : Prop :=
  ∀ s : State, s.Inv →
    (∃ t, execAll (expandPseudo (.refresh s.config.digits)) s = .next t ∧ t.cur = s.cur) ∧
    (∀ slot : Fin 4, slot.val < s.config.digits → ∃ k, k < s.config.digits ∧
      ∃ u t segs, execAll (List.replicate k .advance) s = .next u ∧ u.cur = slot ∧ exec .advance u = .next t ∧
        t.Rendered slot segs ∧ t.slotActive slot = true ∧ ∀ other : Fin 4, other ≠ slot → t.slotActive other = false) ∧
    (∀ k l u v, k < s.config.digits → l < s.config.digits → execAll (List.replicate k .advance) s = .next u →
      execAll (List.replicate l .advance) s = .next v → u.cur = v.cur → k = l)

/-- R140 item 2: SYMCOUNT consecutive TEST commands show the entries SYMCUR, SYMCUR+1, ... mod SYMCOUNT in turn, each once,
and bring SYMCUR back. -/
def Obligations.FullTestCycle : Prop :=
  ∀ s : State, s.Inv →
    (∃ t, execAll (List.replicate s.config.symcount .test) s = .next t ∧ t.symcur = s.symcur) ∧
    (∀ k, ∃ u t e, execAll (List.replicate k .test) s = .next u ∧ exec .test u = .next t ∧
      s.config.symtab[(s.symcur.val + k) % s.config.symcount]? = some e ∧ t.Rendered u.cur e.segs)

/-- R140 item 3, R137 item 2: with DP on throughout and a table whose entries hold no DP, the ADVANCE that renders slot
DIGITS-1 leaves every DP pin active, and an ADVANCE that renders another slot leaves every DP pin inactive. -/
def Obligations.DecimalPointOncePerCycle : Prop :=
  ∀ s : State, s.Inv → s.dp = true → (∀ g, inSegs (s.config.segmentsFor g) .dp = false) →
    ∀ k, ∃ u t, execAll (List.replicate k .advance) s = .next u ∧ exec .advance u = .next t ∧
      ((s.cur.val + k) % s.config.digits = s.config.digits - 1 →
        ∀ p b, (s.config.maskForSegment .dp).hasPin p b = true → t.portBit p b = s.config.pol.segActive) ∧
      ((s.cur.val + k) % s.config.digits ≠ s.config.digits - 1 →
        ∀ p b, (s.config.maskForSegment .dp).hasPin p b = true → t.portBit p b = !s.config.pol.segActive)

/-- R180: under the default of TEST_ADVANCES_CUR, CUR is the count of ADVANCE and TEST commands since CONSTRUCT,
mod DIGITS. -/
def Obligations.CursorCountsTicks : Prop :=
  ∀ (c : Config) (portInit dirInit : Nat → Byte) (is : List Instr), c.admitted = true → c.testAdvancesCur = true →
    ∃ t, execAll is (State.fresh c portInit dirInit) = .next t ∧
      t.cur.val = (is.filter (fun i => i == .advance || i == .test)).length % c.digits

/-! ### Errors and the host's list (60_exceptions.md) -/

/-- R66, R75: when the next event is a word that decodes, the step is that command, run on the state with the word taken
from the list and the position advanced. -/
def Obligations.StepRunsTheDecodedCommand : Prop :=
  ∀ (s : State) (w : CmdWord) (rest : List Event) (i : Instr), s.pending = .command w :: rest → decode w = .command i →
    step s = exec i { s with pending := rest, pos := s.pos + 1 }

/-- R81: each command leaves the list at the next command, refused or not; a refused word has no effect besides the REFUSED
mark and the record of the word and the reason (R152), and nothing clears the mark. -/
def Obligations.EveryCommandMovesTheListByOne : Prop :=
  (∀ (s : State) (w : CmdWord) (rest : List Event), s.pending = .command w :: rest →
    ∃ t, step s = .next t ∧ t.pending = rest ∧ t.pos = s.pos + 1 ∧ (s.refused = true → t.refused = true)) ∧
  (∀ (s : State) (w : CmdWord) (rest : List Event) (r : RefuseReason), s.pending = .command w :: rest →
    decode w = .refuse r →
    step s = .next { s with pending := rest, pos := s.pos + 1, refused := true, refusals := s.refusals ++ [(w, r)] })

/-- R164 with log 4: while the host issues nothing, a step leaves the whole state as it is. -/
def Obligations.IdleHostKeepsTheState : Prop := ∀ s : State, s.pending = [] → step s = .next s

/-- R165: a run of well-formed command words is their commands executed in order; the list is used up and the position has
advanced by their number. -/
def Obligations.RunIsTheCommandsInOrder : Prop :=
  ∀ (s : State) (is : List Instr), (∀ i ∈ is, i.wellFormed = true) →
    ∃ t, execAll is s = .next t ∧
      runProgram (is.map encode) s = .next { t with pending := [], pos := s.pos + is.length }

/-- R152, R166: a run is one a claim may be about exactly when it starts with REFUSED = 0 and every word of it decodes. -/
def Obligations.SafeRunsAreDecodable : Prop :=
  ∀ (s : State) (ws : List CmdWord), SafeRun ws s ↔ s.refused = false ∧ Decodable ws

/-- R53, R166: what a command does to the observation is a function of the observation and the configuration alone: no
command reads a bit it does not own. -/
def Obligations.ObservationIsSelfContained : Prop :=
  ∀ (is : List Instr) (s s' : State), s.Inv → s'.Inv → s.config = s'.config → s.observe = s'.observe →
    ∃ t t', execAll is s = .next t ∧ execAll is s' = .next t' ∧ t.observe = t'.observe

/-! ### Reset (70_reset_and_hazards.md, 10_state.md) -/

/-- `State.reset` is what the first CONSTRUCT leaves, with the configuration of log 1 and the open draws of log 2. -/
def Obligations.ResetIsTheFirstConstruct : Prop :=
  boot Config.portInit Config.dirInit [.construct resetInput] = .next State.reset

/-- R36, R172, R173: the state after the first CONSTRUCT, for every draw of PORT_INIT and DIR_INIT. Before it no command
has a meaning (I13); that the model answers the refusal noInstance there is its own form (DEDUCED, log 20). -/
def Obligations.FirstConstruct : Prop :=
  (∀ (portInit dirInit : Nat → Byte) (c : ConstructInput) (rest : List Event), c.config.admitted = true →
    ∃ t, boot portInit dirInit (.construct c :: rest) = .next t ∧
      (∀ i : Fin 4, t.buf[i] = 0x20) ∧ t.cur = 0 ∧ t.dp = false ∧ t.symcur = 0 ∧ t.refused = false ∧
      t.port.length = c.nports ∧ t.dir.length = c.nports ∧
      (∀ p, p < c.nports → t.readPort p = some (portInit p) ∧ t.readDir p = some (dirInit p)) ∧
      t.config.cfg = c.cfg ∧ t.config.segMask = c.segMask ∧ t.config.digMask = c.digMask ∧ t.config.nports = c.nports ∧
      t.config.symtab = c.symtab.getD defaultSymtab) ∧
  (∀ (portInit dirInit : Nat → Byte) (w : CmdWord) (rest : List Event),
    boot portInit dirInit (.command w :: rest) = .refused .noInstance)

/-- R172, R174: a later CONSTRUCT with an admitted configuration starts a new instance with the reset values and leaves every
port that exists as it was, with no call. Two clauses rest on the model's choices: that the registers of a port at or beyond
a smaller new NPORTS stay too (DESIGN CHOICE, log 7), and that the trace is then empty (DEDUCED, log 6). -/
def Obligations.LaterConstruct : Prop :=
  ∀ (s : State) (c : ConstructInput) (rest : List Event), s.pending = .construct c :: rest →
    c.config.admitted = true → s.dir.length = s.port.length →
    ∃ t, step s = .next t ∧ t.config = c.config ∧
      t.config.digits = c.cfg.toNat % 8 ∧ t.config.pol = [Polarity.ca, .cc, .caid, .ccid].getD (c.cfg.toNat / 8 % 4) .ca ∧
      (∀ i : Fin 4, t.buf[i] = 0x20) ∧ t.cur = 0 ∧ t.dp = false ∧ t.symcur = 0 ∧ t.refused = false ∧
      (∀ p, p < s.port.length → t.readPort p = s.readPort p ∧ t.readDir p = s.readDir p) ∧ t.trace = [] ∧
      t.pending = rest

/-- R153, R154: a configuration that fails a check is refused REF_CONFIG, with itself and a failing check. The model's
choices: the check is the first that fails in the order of `ConfigCheck.all` (DESIGN CHOICE, log 8), and the refusal ends the run, so
that an instance that existed does not go on (DEDUCED, log 23). -/
def Obligations.FailingConfigurationIsRefused : Prop :=
  ∀ (s : State) (c : ConstructInput) (rest : List Event), s.pending = .construct c :: rest →
    c.config.admitted = false →
    ∃ before k after, step s = .refused (.refConfig c k) ∧ ConfigCheck.all = before ++ k :: after ∧
      k.holds c.config = false ∧ ∀ j ∈ before, j.holds c.config = true

/-- R185: how many calls each command makes at most, and exactly how many an ADVANCE makes on REF-A. CONSTRUCT makes none;
that the trace is then empty, whatever it was, rests on the trace starting anew with the new instance (DEDUCED, log 6). -/
def Obligations.TraceBounds : Prop :=
  (∀ (i : Instr) (s : State), ∃ t cs, exec i s = .next t ∧ t.trace = s.trace ++ cs ∧
    cs.length ≤ match i with
      | .begin => s.config.nports + 2 * s.config.nports
      | .blank => 2 * s.config.nports
      | .setstr _ _ _ _ _ => 0
      | .setint _ => 0
      | .setdp _ => 0
      | .advance => 2 * s.config.nports + 8 * s.config.nports + s.config.nports + s.config.nports
      | .test => 2 * s.config.nports + 8 * s.config.nports + s.config.nports) ∧
  (∀ (c : ConstructInput) (s t : State), construct c s = .next t → t.trace = []) ∧
  (∀ (s : State) (cfg : Byte), s.Inv → s.config = (refA cfg).config → ∃ t cs, exec .advance s = .next t ∧
    t.trace = s.trace ++ cs ∧
    cs.length = 2 + ((List.range 8).filter (fun b => (s.config.segmentsFor s.buf[s.cur]).getLsbD b)).length +
      (if s.cur.val + 1 = s.config.digits ∧ s.dp = true then 1 else 0) + 1)

/-! ### The invariant -/

/-- The state after reset meets the invariant (its configuration is the model's choice, log 1; the draws are open, log 2). -/
def Obligations.ResetMeetsTheInvariant : Prop := State.reset.Inv

/-- Every step keeps the invariant: the cursors stay in range (R37), the unused cells keep their reset value (R22), REFUSED
and its record agree (R35, R152), the configuration passed its checks, every port has its registers, and every call in
the trace is owned (R49, R55). -/
def Obligations.EveryStepKeepsTheInvariant : Prop :=
  ∀ s t : State, s.Inv → step s = .next t → t.Inv
end

