-- ==== Sys2Proof/Laws/State.lean ====
section
/-!
SUPPORT. One lemma per field per update: what each setter of the state leaves in each field.
-/

namespace Sys2Proof.Machine.State

variable (s : State)

/-! ### setBuf -/

@[simp] theorem setBuf_config (b : Vector Byte 4) : (s.setBuf b).config = s.config := rfl
@[simp] theorem setBuf_buf (b : Vector Byte 4) : (s.setBuf b).buf = b := rfl
@[simp] theorem setBuf_cur (b : Vector Byte 4) : (s.setBuf b).cur = s.cur := rfl
@[simp] theorem setBuf_dp (b : Vector Byte 4) : (s.setBuf b).dp = s.dp := rfl
@[simp] theorem setBuf_symcur (b : Vector Byte 4) : (s.setBuf b).symcur = s.symcur := rfl
@[simp] theorem setBuf_port (b : Vector Byte 4) : (s.setBuf b).port = s.port := rfl
@[simp] theorem setBuf_dir (b : Vector Byte 4) : (s.setBuf b).dir = s.dir := rfl
@[simp] theorem setBuf_refused (b : Vector Byte 4) : (s.setBuf b).refused = s.refused := rfl
@[simp] theorem setBuf_refusals (b : Vector Byte 4) : (s.setBuf b).refusals = s.refusals := rfl
@[simp] theorem setBuf_trace (b : Vector Byte 4) : (s.setBuf b).trace = s.trace := rfl
@[simp] theorem setBuf_pending (b : Vector Byte 4) : (s.setBuf b).pending = s.pending := rfl
@[simp] theorem setBuf_pos (b : Vector Byte 4) : (s.setBuf b).pos = s.pos := rfl

/-! ### setCur -/

@[simp] theorem setCur_config (v : Fin 4) : (s.setCur v).config = s.config := rfl
@[simp] theorem setCur_buf (v : Fin 4) : (s.setCur v).buf = s.buf := rfl
@[simp] theorem setCur_cur (v : Fin 4) : (s.setCur v).cur = v := rfl
@[simp] theorem setCur_dp (v : Fin 4) : (s.setCur v).dp = s.dp := rfl
@[simp] theorem setCur_symcur (v : Fin 4) : (s.setCur v).symcur = s.symcur := rfl
@[simp] theorem setCur_port (v : Fin 4) : (s.setCur v).port = s.port := rfl
@[simp] theorem setCur_dir (v : Fin 4) : (s.setCur v).dir = s.dir := rfl
@[simp] theorem setCur_refused (v : Fin 4) : (s.setCur v).refused = s.refused := rfl
@[simp] theorem setCur_refusals (v : Fin 4) : (s.setCur v).refusals = s.refusals := rfl
@[simp] theorem setCur_trace (v : Fin 4) : (s.setCur v).trace = s.trace := rfl
@[simp] theorem setCur_pending (v : Fin 4) : (s.setCur v).pending = s.pending := rfl
@[simp] theorem setCur_pos (v : Fin 4) : (s.setCur v).pos = s.pos := rfl

/-! ### setSymcur -/

@[simp] theorem setSymcur_config (v : Fin 256) : (s.setSymcur v).config = s.config := rfl
@[simp] theorem setSymcur_buf (v : Fin 256) : (s.setSymcur v).buf = s.buf := rfl
@[simp] theorem setSymcur_cur (v : Fin 256) : (s.setSymcur v).cur = s.cur := rfl
@[simp] theorem setSymcur_dp (v : Fin 256) : (s.setSymcur v).dp = s.dp := rfl
@[simp] theorem setSymcur_symcur (v : Fin 256) : (s.setSymcur v).symcur = v := rfl
@[simp] theorem setSymcur_port (v : Fin 256) : (s.setSymcur v).port = s.port := rfl
@[simp] theorem setSymcur_dir (v : Fin 256) : (s.setSymcur v).dir = s.dir := rfl
@[simp] theorem setSymcur_refused (v : Fin 256) : (s.setSymcur v).refused = s.refused := rfl
@[simp] theorem setSymcur_refusals (v : Fin 256) : (s.setSymcur v).refusals = s.refusals := rfl
@[simp] theorem setSymcur_trace (v : Fin 256) : (s.setSymcur v).trace = s.trace := rfl
@[simp] theorem setSymcur_pending (v : Fin 256) : (s.setSymcur v).pending = s.pending := rfl
@[simp] theorem setSymcur_pos (v : Fin 256) : (s.setSymcur v).pos = s.pos := rfl

/-! ### setDp -/

@[simp] theorem setDp_config (v : Bool) : (s.setDp v).config = s.config := rfl
@[simp] theorem setDp_buf (v : Bool) : (s.setDp v).buf = s.buf := rfl
@[simp] theorem setDp_cur (v : Bool) : (s.setDp v).cur = s.cur := rfl
@[simp] theorem setDp_dp (v : Bool) : (s.setDp v).dp = v := rfl
@[simp] theorem setDp_symcur (v : Bool) : (s.setDp v).symcur = s.symcur := rfl
@[simp] theorem setDp_port (v : Bool) : (s.setDp v).port = s.port := rfl
@[simp] theorem setDp_dir (v : Bool) : (s.setDp v).dir = s.dir := rfl
@[simp] theorem setDp_refused (v : Bool) : (s.setDp v).refused = s.refused := rfl
@[simp] theorem setDp_refusals (v : Bool) : (s.setDp v).refusals = s.refusals := rfl
@[simp] theorem setDp_trace (v : Bool) : (s.setDp v).trace = s.trace := rfl
@[simp] theorem setDp_pending (v : Bool) : (s.setDp v).pending = s.pending := rfl
@[simp] theorem setDp_pos (v : Bool) : (s.setDp v).pos = s.pos := rfl

/-! ### refuseWord -/

@[simp] theorem refuseWord_config (w : CmdWord) (r : RefuseReason) : (s.refuseWord w r).config = s.config := rfl
@[simp] theorem refuseWord_buf (w : CmdWord) (r : RefuseReason) : (s.refuseWord w r).buf = s.buf := rfl
@[simp] theorem refuseWord_cur (w : CmdWord) (r : RefuseReason) : (s.refuseWord w r).cur = s.cur := rfl
@[simp] theorem refuseWord_dp (w : CmdWord) (r : RefuseReason) : (s.refuseWord w r).dp = s.dp := rfl
@[simp] theorem refuseWord_symcur (w : CmdWord) (r : RefuseReason) : (s.refuseWord w r).symcur = s.symcur := rfl
@[simp] theorem refuseWord_port (w : CmdWord) (r : RefuseReason) : (s.refuseWord w r).port = s.port := rfl
@[simp] theorem refuseWord_dir (w : CmdWord) (r : RefuseReason) : (s.refuseWord w r).dir = s.dir := rfl
@[simp] theorem refuseWord_refused (w : CmdWord) (r : RefuseReason) : (s.refuseWord w r).refused = true := rfl
@[simp] theorem refuseWord_refusals (w : CmdWord) (r : RefuseReason) : (s.refuseWord w r).refusals = s.refusals ++ [(w, r)] := rfl
@[simp] theorem refuseWord_trace (w : CmdWord) (r : RefuseReason) : (s.refuseWord w r).trace = s.trace := rfl
@[simp] theorem refuseWord_pending (w : CmdWord) (r : RefuseReason) : (s.refuseWord w r).pending = s.pending := rfl
@[simp] theorem refuseWord_pos (w : CmdWord) (r : RefuseReason) : (s.refuseWord w r).pos = s.pos := rfl

/-! ### takeCommand -/

@[simp] theorem takeCommand_config (rest : List Event) : (s.takeCommand rest).config = s.config := rfl
@[simp] theorem takeCommand_buf (rest : List Event) : (s.takeCommand rest).buf = s.buf := rfl
@[simp] theorem takeCommand_cur (rest : List Event) : (s.takeCommand rest).cur = s.cur := rfl
@[simp] theorem takeCommand_dp (rest : List Event) : (s.takeCommand rest).dp = s.dp := rfl
@[simp] theorem takeCommand_symcur (rest : List Event) : (s.takeCommand rest).symcur = s.symcur := rfl
@[simp] theorem takeCommand_port (rest : List Event) : (s.takeCommand rest).port = s.port := rfl
@[simp] theorem takeCommand_dir (rest : List Event) : (s.takeCommand rest).dir = s.dir := rfl
@[simp] theorem takeCommand_refused (rest : List Event) : (s.takeCommand rest).refused = s.refused := rfl
@[simp] theorem takeCommand_refusals (rest : List Event) : (s.takeCommand rest).refusals = s.refusals := rfl
@[simp] theorem takeCommand_trace (rest : List Event) : (s.takeCommand rest).trace = s.trace := rfl
@[simp] theorem takeCommand_pending (rest : List Event) : (s.takeCommand rest).pending = rest := rfl
@[simp] theorem takeCommand_pos (rest : List Event) : (s.takeCommand rest).pos = s.pos + 1 := rfl

/-! ### takeOther -/

@[simp] theorem takeOther_config (rest : List Event) : (s.takeOther rest).config = s.config := rfl
@[simp] theorem takeOther_buf (rest : List Event) : (s.takeOther rest).buf = s.buf := rfl
@[simp] theorem takeOther_cur (rest : List Event) : (s.takeOther rest).cur = s.cur := rfl
@[simp] theorem takeOther_dp (rest : List Event) : (s.takeOther rest).dp = s.dp := rfl
@[simp] theorem takeOther_symcur (rest : List Event) : (s.takeOther rest).symcur = s.symcur := rfl
@[simp] theorem takeOther_port (rest : List Event) : (s.takeOther rest).port = s.port := rfl
@[simp] theorem takeOther_dir (rest : List Event) : (s.takeOther rest).dir = s.dir := rfl
@[simp] theorem takeOther_refused (rest : List Event) : (s.takeOther rest).refused = s.refused := rfl
@[simp] theorem takeOther_refusals (rest : List Event) : (s.takeOther rest).refusals = s.refusals := rfl
@[simp] theorem takeOther_trace (rest : List Event) : (s.takeOther rest).trace = s.trace := rfl
@[simp] theorem takeOther_pending (rest : List Event) : (s.takeOther rest).pending = rest := rfl
@[simp] theorem takeOther_pos (rest : List Event) : (s.takeOther rest).pos = s.pos := rfl

/-! ### deliverNext -/

@[simp] theorem deliverNext_config (w : CmdWord) : (s.deliverNext w).config = s.config := rfl
@[simp] theorem deliverNext_buf (w : CmdWord) : (s.deliverNext w).buf = s.buf := rfl
@[simp] theorem deliverNext_cur (w : CmdWord) : (s.deliverNext w).cur = s.cur := rfl
@[simp] theorem deliverNext_dp (w : CmdWord) : (s.deliverNext w).dp = s.dp := rfl
@[simp] theorem deliverNext_symcur (w : CmdWord) : (s.deliverNext w).symcur = s.symcur := rfl
@[simp] theorem deliverNext_port (w : CmdWord) : (s.deliverNext w).port = s.port := rfl
@[simp] theorem deliverNext_dir (w : CmdWord) : (s.deliverNext w).dir = s.dir := rfl
@[simp] theorem deliverNext_refused (w : CmdWord) : (s.deliverNext w).refused = s.refused := rfl
@[simp] theorem deliverNext_refusals (w : CmdWord) : (s.deliverNext w).refusals = s.refusals := rfl
@[simp] theorem deliverNext_trace (w : CmdWord) : (s.deliverNext w).trace = s.trace := rfl
@[simp] theorem deliverNext_pending (w : CmdWord) : (s.deliverNext w).pending = .command w :: s.pending := rfl
@[simp] theorem deliverNext_pos (w : CmdWord) : (s.deliverNext w).pos = s.pos := rfl

/-! ### writeText: only the buffer changes -/

@[simp] theorem writeText_config (len : Nat) (t : List Byte) : (s.writeText len t).config = s.config := rfl
@[simp] theorem writeText_buf (len : Nat) (t : List Byte) : (s.writeText len t).buf = copyText (min len s.config.digits) t s.buf := rfl
@[simp] theorem writeText_cur (len : Nat) (t : List Byte) : (s.writeText len t).cur = s.cur := rfl
@[simp] theorem writeText_dp (len : Nat) (t : List Byte) : (s.writeText len t).dp = s.dp := rfl
@[simp] theorem writeText_symcur (len : Nat) (t : List Byte) : (s.writeText len t).symcur = s.symcur := rfl
@[simp] theorem writeText_port (len : Nat) (t : List Byte) : (s.writeText len t).port = s.port := rfl
@[simp] theorem writeText_dir (len : Nat) (t : List Byte) : (s.writeText len t).dir = s.dir := rfl
@[simp] theorem writeText_refused (len : Nat) (t : List Byte) : (s.writeText len t).refused = s.refused := rfl
@[simp] theorem writeText_refusals (len : Nat) (t : List Byte) : (s.writeText len t).refusals = s.refusals := rfl
@[simp] theorem writeText_trace (len : Nat) (t : List Byte) : (s.writeText len t).trace = s.trace := rfl
@[simp] theorem writeText_pending (len : Nat) (t : List Byte) : (s.writeText len t).pending = s.pending := rfl
@[simp] theorem writeText_pos (len : Nat) (t : List Byte) : (s.writeText len t).pos = s.pos := rfl

/-! ### perform: only the ports and the trace change -/

@[simp] theorem perform_config (c : PrimCall) : (s.perform c).config = s.config := by cases c <;> rfl
@[simp] theorem perform_buf (c : PrimCall) : (s.perform c).buf = s.buf := by cases c <;> rfl
@[simp] theorem perform_cur (c : PrimCall) : (s.perform c).cur = s.cur := by cases c <;> rfl
@[simp] theorem perform_dp (c : PrimCall) : (s.perform c).dp = s.dp := by cases c <;> rfl
@[simp] theorem perform_symcur (c : PrimCall) : (s.perform c).symcur = s.symcur := by cases c <;> rfl
@[simp] theorem perform_refused (c : PrimCall) : (s.perform c).refused = s.refused := by cases c <;> rfl
@[simp] theorem perform_refusals (c : PrimCall) : (s.perform c).refusals = s.refusals := by cases c <;> rfl
@[simp] theorem perform_trace (c : PrimCall) : (s.perform c).trace = s.trace ++ [c] := by cases c <;> rfl
@[simp] theorem perform_pending (c : PrimCall) : (s.perform c).pending = s.pending := by cases c <;> rfl
@[simp] theorem perform_pos (c : PrimCall) : (s.perform c).pos = s.pos := by cases c <;> rfl

/-! ### externalWrite: only the ports change -/

@[simp] theorem externalWrite_config (r : PortReg) (p : Nat) (mask value : Byte) :
    (s.externalWrite r p mask value).config = s.config := by cases r <;> rfl
@[simp] theorem externalWrite_buf (r : PortReg) (p : Nat) (mask value : Byte) :
    (s.externalWrite r p mask value).buf = s.buf := by cases r <;> rfl
@[simp] theorem externalWrite_cur (r : PortReg) (p : Nat) (mask value : Byte) :
    (s.externalWrite r p mask value).cur = s.cur := by cases r <;> rfl
@[simp] theorem externalWrite_dp (r : PortReg) (p : Nat) (mask value : Byte) :
    (s.externalWrite r p mask value).dp = s.dp := by cases r <;> rfl
@[simp] theorem externalWrite_symcur (r : PortReg) (p : Nat) (mask value : Byte) :
    (s.externalWrite r p mask value).symcur = s.symcur := by cases r <;> rfl
@[simp] theorem externalWrite_refused (r : PortReg) (p : Nat) (mask value : Byte) :
    (s.externalWrite r p mask value).refused = s.refused := by cases r <;> rfl
@[simp] theorem externalWrite_refusals (r : PortReg) (p : Nat) (mask value : Byte) :
    (s.externalWrite r p mask value).refusals = s.refusals := by cases r <;> rfl
@[simp] theorem externalWrite_trace (r : PortReg) (p : Nat) (mask value : Byte) :
    (s.externalWrite r p mask value).trace = s.trace := by cases r <;> rfl
@[simp] theorem externalWrite_pending (r : PortReg) (p : Nat) (mask value : Byte) :
    (s.externalWrite r p mask value).pending = s.pending := by cases r <;> rfl
@[simp] theorem externalWrite_pos (r : PortReg) (p : Nat) (mask value : Byte) :
    (s.externalWrite r p mask value).pos = s.pos := by cases r <;> rfl

/-! ### fresh: the state after the first CONSTRUCT -/

@[simp] theorem fresh_config (c : Config) (pi di : Nat → Byte) : (fresh c pi di).config = c := rfl
@[simp] theorem fresh_buf (c : Config) (pi di : Nat → Byte) : (fresh c pi di).buf = #v[0x20, 0x20, 0x20, 0x20] := rfl
@[simp] theorem fresh_cur (c : Config) (pi di : Nat → Byte) : (fresh c pi di).cur = 0 := rfl
@[simp] theorem fresh_dp (c : Config) (pi di : Nat → Byte) : (fresh c pi di).dp = false := rfl
@[simp] theorem fresh_symcur (c : Config) (pi di : Nat → Byte) : (fresh c pi di).symcur = 0 := rfl
@[simp] theorem fresh_port (c : Config) (pi di : Nat → Byte) : (fresh c pi di).port = (List.range c.nports).map pi := rfl
@[simp] theorem fresh_dir (c : Config) (pi di : Nat → Byte) : (fresh c pi di).dir = (List.range c.nports).map di := rfl
@[simp] theorem fresh_refused (c : Config) (pi di : Nat → Byte) : (fresh c pi di).refused = false := rfl
@[simp] theorem fresh_refusals (c : Config) (pi di : Nat → Byte) : (fresh c pi di).refusals = [] := rfl
@[simp] theorem fresh_trace (c : Config) (pi di : Nat → Byte) : (fresh c pi di).trace = [] := rfl
@[simp] theorem fresh_pending (c : Config) (pi di : Nat → Byte) : (fresh c pi di).pending = [] := rfl
@[simp] theorem fresh_pos (c : Config) (pi di : Nat → Byte) : (fresh c pi di).pos = 0 := rfl

end Sys2Proof.Machine.State
end

