-- ==== Sys2Proof/Laws/Content.lean ====
section
/-!
SUPPORT. The copy into the buffer cell by cell, and the decimal text.
-/

namespace Sys2Proof.Machine

/-- The copy, cell by cell: the first `n` cells from the text, the others as they were (42_content.md R120). -/
theorem copyText_cell (n : Nat) (t : List Byte) (b : Vector Byte 4) (i : Nat) (hi : i < 4) :
    (copyText n t b)[i] = if i < n then t.getD i b[i] else b[i] := by simp [copyText]

/-- The loop of `dec` with text already there: the text stays at the end. -/
theorem decLoop_append (fuel a : Nat) (t : List Byte) : decLoop fuel a t = decLoop fuel a [] ++ t := by
  induction fuel generalizing a t with
  | zero => simp [decLoop]
  | succ n ih =>
    by_cases h : a = 0
    · simp [decLoop, h]
    · simp only [decLoop, h, if_false]
      rw [ih (a / 10) (_ :: t), ih (a / 10) [_]]
      simp

/-- More rounds than needed change nothing. -/
theorem decLoop_fuel {fuel fuel' a : Nat} (h : a ≤ fuel) (h' : a ≤ fuel') (t : List Byte) :
    decLoop fuel a t = decLoop fuel' a t := by
  induction fuel generalizing fuel' a t with
  | zero =>
    have : a = 0 := by omega
    subst this
    cases fuel' <;> simp [decLoop]
  | succ n ih =>
    by_cases h0 : a = 0
    · subst h0; cases fuel' <;> simp [decLoop]
    · obtain ⟨m, rfl⟩ : ∃ m, fuel' = m + 1 := ⟨fuel' - 1, by omega⟩
      simp only [decLoop, h0, if_false]
      exact ih (by omega) (by omega) _

/-- The decimal digits of a natural number, most significant first; none for 0. -/
def natText (a : Nat) : List Byte := decLoop a a []

@[simp] theorem natText_zero : natText 0 = [] := rfl

/-- The last digit stands apart (42_content.md R122). -/
theorem natText_pos {a : Nat} (h : a ≠ 0) :
    natText a = natText (a / 10) ++ [BitVec.ofNat 8 (0x30 + a % 10)] := by
  obtain ⟨n, rfl⟩ : ∃ n, a = n + 1 := ⟨a - 1, by omega⟩
  rw [natText, decLoop]
  simp only [Nat.add_one_ne_zero, if_false]
  rw [decLoop_append, natText, decLoop_fuel (by omega : (n + 1) / 10 ≤ n) (le_refl _)]

theorem dec_zero : dec 0 = [0x30] := by simp [dec]

theorem dec_pos {v : Int} (h : 0 < v) : dec v = natText v.natAbs := by
  simp [dec, natText, Int.ne_of_gt h, Int.not_lt.2 (Int.le_of_lt h)]

theorem dec_neg {v : Int} (h : v < 0) : dec v = 0x2D :: natText v.natAbs := by
  simp [dec, natText, Int.ne_of_lt h, h]

end Sys2Proof.Machine
end

