-- ==== Sys2Proof/Laws/Mask.lean ====
section
/-!
SUPPORT. Port masks: what union, intersection and the aggregate masks hold on each pin, and what the wiring checks say.
-/

namespace Sys2Proof

namespace PortMask

@[simp] theorem byte_nil (p : Nat) : byte [] p = 0#8 := by simp [byte]

@[simp] theorem byte_cons_zero (x : Byte) (m : PortMask) : byte (x :: m) 0 = x := rfl

@[simp] theorem byte_cons_succ (x : Byte) (m : PortMask) (p : Nat) : byte (x :: m) (p + 1) = byte m p := rfl

@[simp] theorem byte_zero (n p : Nat) : byte (zero n) p = 0#8 := by
  simp only [byte, zero, List.getD_eq_getElem?_getD, List.getElem?_replicate]
  split <;> rfl

@[simp] theorem byte_or (m n : PortMask) (p : Nat) : byte (or m n) p = byte m p ||| byte n p := by
  induction m, n using or.induct generalizing p with
  | case1 n => simp [or]
  | case2 m h => cases m <;> simp [or]
  | case3 x m y n ih => cases p <;> simp [or, ih]

@[simp] theorem byte_and (m n : PortMask) (p : Nat) : byte (and m n) p = byte m p &&& byte n p := by
  induction m generalizing n p with
  | nil => simp [and]
  | cons x m ih => cases n <;> cases p <;> simp [and, ih]

theorem isZero_iff (m : PortMask) : isZero m = true ↔ ∀ p, byte m p = 0#8 := by
  induction m with
  | nil => simp [isZero]
  | cons x m ih =>
    have h : isZero (x :: m) = (x == 0#8 && isZero m) := by simp [isZero]
    rw [h, Bool.and_eq_true, beq_iff_eq, ih]
    exact ⟨fun ⟨hx, hm⟩ p => by cases p <;> simp [hx, hm], fun h => ⟨h 0, fun p => h (p + 1)⟩⟩

theorem disjoint_iff (m n : PortMask) : disjoint m n = true ↔ ∀ p, byte m p &&& byte n p = 0#8 := by
  simp [disjoint, isZero_iff]

/-- Disjoint masks share no pin. -/
theorem hasPin_of_disjoint {m n : PortMask} (h : disjoint m n = true) {p b : Nat} (hm : m.hasPin p b = true) :
    n.hasPin p b = false := by
  have := congrArg (fun v => v.getLsbD b) ((disjoint_iff m n).1 h p)
  simp only [BitVec.getLsbD_and, BitVec.getLsbD_zero] at this
  simpa [hasPin, show (m.byte p).getLsbD b = true from hm] using this

@[simp] theorem hasPin_zero (n p b : Nat) : (zero n).hasPin p b = false := by simp [hasPin]

@[simp] theorem hasPin_or (m n : PortMask) (p b : Nat) : (or m n).hasPin p b = (m.hasPin p b || n.hasPin p b) := by
  simp [hasPin]

theorem hasPin_lt {m : PortMask} {p b : Nat} (h : m.hasPin p b = true) : b < 8 := by
  by_contra hb
  simp [hasPin, BitVec.getLsbD_of_ge _ _ (by omega : 8 ≤ b)] at h

/-- A mask of `n` bytes has no pin on a port at or beyond `n`. -/
theorem byte_eq_zero_of_length_le {m : PortMask} {p : Nat} (h : m.length ≤ p) : m.byte p = 0#8 := by
  simp [byte, List.getD_eq_getElem?_getD, List.getElem?_eq_none h]

/-- A non-zero mask has a pin. -/
theorem exists_hasPin {m : PortMask} (h : m.isZero = false) : ∃ p b, m.hasPin p b = true := by
  by_contra hno
  have : m.isZero = true := (isZero_iff m).2 fun p => by
    ext b hb
    have := fun h => hno ⟨p, b, h⟩
    rw [← BitVec.getLsbD_eq_getElem]
    simpa [hasPin] using this
  simp [this] at h

/-- A mask is non-zero exactly when it has a pin. -/
theorem isZero_eq_false_iff (m : PortMask) : m.isZero = false ↔ ∃ p b, m.hasPin p b = true := by
  constructor
  · exact exists_hasPin
  · rintro ⟨p, b, h⟩
    by_contra hn
    simp [hasPin, (isZero_iff m).1 (by simpa using hn) p] at h

/-- Masks are disjoint exactly when they share no pin. -/
theorem disjoint_iff_pins (m n : PortMask) :
    m.disjoint n = true ↔ ∀ p b, ¬(m.hasPin p b = true ∧ n.hasPin p b = true) := by
  constructor
  · rintro h p b ⟨h1, h2⟩
    simp [hasPin_of_disjoint h h1] at h2
  · intro h
    rw [disjoint_iff]
    intro p
    apply BitVec.eq_of_getLsbD_eq
    intro b _
    have := h p b
    simp only [hasPin] at this
    rw [BitVec.getLsbD_and, BitVec.getLsbD_zero, Bool.and_eq_false_iff]
    by_contra hc
    simp only [not_or, Bool.not_eq_false] at hc
    exact this hc

end PortMask

namespace SegmentId

theorem exists_code (k : Fin 8) : ∃ id : SegmentId, id.code = k :=
  match k with
  | 0 => ⟨.a, rfl⟩ | 1 => ⟨.b, rfl⟩ | 2 => ⟨.c, rfl⟩ | 3 => ⟨.d, rfl⟩
  | 4 => ⟨.e, rfl⟩ | 5 => ⟨.f, rfl⟩ | 6 => ⟨.g, rfl⟩ | 7 => ⟨.dp, rfl⟩

theorem code_inj {i j : SegmentId} (h : i.code = j.code) : i = j := by
  cases i <;> cases j <;> first | rfl | exact absurd h (by decide)

@[simp] theorem mem_all (id : SegmentId) : id ∈ all := by cases id <;> decide

end SegmentId

@[simp] theorem mem_allSlots (s : Fin 4) : s ∈ allSlots := by revert s; decide

namespace Config

variable (c : Config)

theorem allSegmentsMask_hasPin (p b : Nat) :
    c.allSegmentsMask.hasPin p b = true ↔ ∃ id, (c.maskForSegment id).hasPin p b = true := by
  simp only [allSegmentsMask, SegmentId.all, List.foldl, PortMask.hasPin_or, PortMask.hasPin_zero, Bool.false_or,
    Bool.or_eq_true]
  constructor
  · rintro (((((((h | h) | h) | h) | h) | h) | h) | h) <;> exact ⟨_, h⟩
  · rintro ⟨id, h⟩
    cases id <;> simp [h]

theorem allDigitsMask_hasPin (p b : Nat) :
    c.allDigitsMask.hasPin p b = true ↔ ∃ s, (c.maskForDigit s).hasPin p b = true := by
  simp only [allDigitsMask, allSlots, List.foldl, PortMask.hasPin_or, PortMask.hasPin_zero, Bool.false_or,
    Bool.or_eq_true]
  constructor
  · rintro (((h | h) | h) | h) <;> exact ⟨_, h⟩
  · rintro ⟨s, h⟩
    match s with
    | 0 => simp [h]
    | 1 => simp [h]
    | 2 => simp [h]
    | 3 => simp [h]

theorem own_hasPin (p b : Nat) :
    c.own.hasPin p b = (c.allSegmentsMask.hasPin p b || c.allDigitsMask.hasPin p b) := by simp [own]

/-- An unused slot has no pin (40_lookup.md R88). -/
theorem maskForDigit_unused {s : Fin 4} (h : c.digits ≤ s.val) : c.maskForDigit s = PortMask.zero c.nports := by
  simp [maskForDigit, Nat.not_lt.2 h]

/-- A slot with a pin is used (40_lookup.md R88). -/
theorem used_of_hasPin {s : Fin 4} {p b : Nat} (h : (c.maskForDigit s).hasPin p b = true) : s.val < c.digits := by
  by_contra hn
  simp [c.maskForDigit_unused (Nat.not_lt.1 hn)] at h

theorem holds_of_admitted {c : Config} (h : c.admitted = true) (k : ConfigCheck) : k.holds c = true := by
  have := List.all_eq_true.1 h k (by cases k <;> decide)
  simpa using this

theorem admitted_iff_failing : c.admitted = true ↔ c.failing = none := by
  simp [admitted, failing, List.all_eq_true, List.find?_eq_none]

section Admitted
variable {c} (h : c.admitted = true)
include h

theorem digits_pos : 1 ≤ c.digits := by
  have := holds_of_admitted h .k1
  simp only [ConfigCheck.holds, Bool.and_eq_true, decide_eq_true_eq] at this
  exact this.1

theorem digits_le : c.digits ≤ 4 := by
  have := holds_of_admitted h .k1
  simp only [ConfigCheck.holds, Bool.and_eq_true, decide_eq_true_eq] at this
  exact this.2

theorem symcount_pos : 1 ≤ c.symcount := by
  have := holds_of_admitted h .s1
  simp only [ConfigCheck.holds, Bool.and_eq_true, decide_eq_true_eq] at this
  exact this.1

theorem symcount_le : c.symcount ≤ 256 := by
  have := holds_of_admitted h .s1
  simp only [ConfigCheck.holds, Bool.and_eq_true, decide_eq_true_eq] at this
  exact this.2

/-- Check M3: no pin belongs to two segments. -/
theorem segment_pin_unique {i j : SegmentId} {p b : Nat} (hi : (c.maskForSegment i).hasPin p b = true)
    (hj : (c.maskForSegment j).hasPin p b = true) : i = j := by
  by_contra hne
  have := holds_of_admitted h .m3
  simp only [ConfigCheck.holds, List.all_eq_true] at this
  have := this i (by simp) j (by simp)
  simp only [Bool.or_eq_true, beq_iff_eq, hne, false_or] at this
  simp [PortMask.hasPin_of_disjoint this hi] at hj

/-- Check M5: no pin belongs to two used slots. -/
theorem digit_pin_unique {i j : Fin 4} {p b : Nat} (hi : (c.maskForDigit i).hasPin p b = true)
    (hj : (c.maskForDigit j).hasPin p b = true) : i = j := by
  by_contra hne
  have ui := c.used_of_hasPin hi
  have uj := c.used_of_hasPin hj
  have := holds_of_admitted h .m5
  simp only [ConfigCheck.holds, List.all_eq_true] at this
  have := this i (by simp) j (by simp)
  simp only [Bool.or_eq_true, beq_iff_eq, hne, ui, uj, decide_true, Bool.not_true, Bool.false_eq_true, false_or] at this
  simp only [maskForDigit, ui, uj, if_true] at hi hj
  exact Bool.false_ne_true ((PortMask.hasPin_of_disjoint this hi).symm.trans hj)

/-- Check M6: no pin is both a segment's and a digit's. -/
theorem segment_digit_disjoint {p b : Nat} (hs : c.allSegmentsMask.hasPin p b = true) :
    c.allDigitsMask.hasPin p b = false :=
  PortMask.hasPin_of_disjoint (holds_of_admitted h .m6) hs

/-- Check M4: every used slot has a select pin. -/
theorem digit_pin_exists {s : Fin 4} (hs : s.val < c.digits) : ∃ p b, (c.maskForDigit s).hasPin p b = true := by
  have := holds_of_admitted h .m4
  simp only [ConfigCheck.holds, List.all_eq_true] at this
  have := this s (by simp)
  simp only [Bool.or_eq_true, hs, decide_true, Bool.not_true, Bool.false_eq_true, false_or, Bool.not_eq_true'] at this
  simpa [maskForDigit, hs] using PortMask.exists_hasPin this

/-- Check M1: a segment's pins lie on ports below NPORTS. -/
theorem segment_pin_port {id : SegmentId} {p b : Nat} (hp : (c.maskForSegment id).hasPin p b = true) : p < c.nports := by
  by_contra hn
  have := holds_of_admitted h .m1
  simp only [ConfigCheck.holds, Bool.and_eq_true, List.all_eq_true, beq_iff_eq] at this
  have hl := this.1.2 id (by simp)
  simp [PortMask.hasPin, PortMask.byte_eq_zero_of_length_le (show (c.maskForSegment id).length ≤ p by omega)] at hp

/-- Check M1: a slot's pins lie on ports below NPORTS. -/
theorem digit_pin_port {s : Fin 4} {p b : Nat} (hp : (c.maskForDigit s).hasPin p b = true) : p < c.nports := by
  by_contra hn
  have hu := c.used_of_hasPin hp
  simp only [maskForDigit, hu, if_true] at hp
  have := holds_of_admitted h .m1
  simp only [ConfigCheck.holds, Bool.and_eq_true, List.all_eq_true, beq_iff_eq] at this
  have hl := this.2 s (by simp)
  rw [PortMask.hasPin, PortMask.byte_eq_zero_of_length_le (show (c.digMask[s]).length ≤ p by omega)] at hp
  simp at hp

/-- Check M1: the owned pins lie on ports below NPORTS. -/
theorem own_pin_port {p b : Nat} (hp : c.own.hasPin p b = true) : p < c.nports := by
  rw [own_hasPin, Bool.or_eq_true, allSegmentsMask_hasPin, allDigitsMask_hasPin] at hp
  rcases hp with ⟨id, h1⟩ | ⟨d, h1⟩
  · exact segment_pin_port h h1
  · exact digit_pin_port h h1

end Admitted

end Config

end Sys2Proof
end

