-- ==== Sys2Proof/Laws/Ports.lean ====
section
/-!
SUPPORT. What the primitives and the drive procedures do: to each pin of PORT and DIR, to the trace, and to nothing else.
-/

namespace Sys2Proof.Machine

namespace State

variable (s : State)

/-! ### Primitives -/

@[simp] theorem perform_port_length (c : PrimCall) : (s.perform c).port.length = s.port.length := by
  cases c <;> simp [perform]

@[simp] theorem perform_dir_length (c : PrimCall) : (s.perform c).dir.length = s.dir.length := by
  cases c <;> simp [perform]

@[simp] theorem performAll_nil : s.performAll [] = s := rfl

@[simp] theorem performAll_cons (c : PrimCall) (cs : List PrimCall) :
    s.performAll (c :: cs) = (s.perform c).performAll cs := rfl

theorem performAll_append (cs ds : List PrimCall) :
    s.performAll (cs ++ ds) = (s.performAll cs).performAll ds := by
  simp [performAll, List.foldl_append]

/-- Calls in order: the trace grows by exactly these calls, and only the ports change beside it. -/
@[simp] theorem performAll_trace (cs : List PrimCall) : (s.performAll cs).trace = s.trace ++ cs := by
  induction cs generalizing s with
  | nil => simp
  | cons c cs ih => simp [ih]

@[simp] theorem performAll_config (cs : List PrimCall) : (s.performAll cs).config = s.config := by
  induction cs generalizing s with
  | nil => rfl
  | cons c cs ih => simp [ih]

@[simp] theorem performAll_buf (cs : List PrimCall) : (s.performAll cs).buf = s.buf := by
  induction cs generalizing s with
  | nil => rfl
  | cons c cs ih => simp [ih]

@[simp] theorem performAll_cur (cs : List PrimCall) : (s.performAll cs).cur = s.cur := by
  induction cs generalizing s with
  | nil => rfl
  | cons c cs ih => simp [ih]

@[simp] theorem performAll_dp (cs : List PrimCall) : (s.performAll cs).dp = s.dp := by
  induction cs generalizing s with
  | nil => rfl
  | cons c cs ih => simp [ih]

@[simp] theorem performAll_symcur (cs : List PrimCall) : (s.performAll cs).symcur = s.symcur := by
  induction cs generalizing s with
  | nil => rfl
  | cons c cs ih => simp [ih]

@[simp] theorem performAll_refused (cs : List PrimCall) : (s.performAll cs).refused = s.refused := by
  induction cs generalizing s with
  | nil => rfl
  | cons c cs ih => simp [ih]

@[simp] theorem performAll_refusals (cs : List PrimCall) : (s.performAll cs).refusals = s.refusals := by
  induction cs generalizing s with
  | nil => rfl
  | cons c cs ih => simp [ih]

@[simp] theorem performAll_pending (cs : List PrimCall) : (s.performAll cs).pending = s.pending := by
  induction cs generalizing s with
  | nil => rfl
  | cons c cs ih => simp [ih]

@[simp] theorem performAll_pos (cs : List PrimCall) : (s.performAll cs).pos = s.pos := by
  induction cs generalizing s with
  | nil => rfl
  | cons c cs ih => simp [ih]

@[simp] theorem performAll_port_length (cs : List PrimCall) : (s.performAll cs).port.length = s.port.length := by
  induction cs generalizing s with
  | nil => rfl
  | cons c cs ih => simp [ih]

@[simp] theorem performAll_dir_length (cs : List PrimCall) : (s.performAll cs).dir.length = s.dir.length := by
  induction cs generalizing s with
  | nil => rfl
  | cons c cs ih => simp [ih]

end State

/-- What one call does to one output register. -/
def PrimCall.onPort (c : PrimCall) (p : Nat) (v : Byte) : Byte :=
  match c with
  | .portSet q m => if q = p then v ||| m else v
  | .portClear q m => if q = p then v &&& ~~~m else v
  | .dirOut _ _ => v

/-- What one call does to one direction register. -/
def PrimCall.onDir (c : PrimCall) (p : Nat) (v : Byte) : Byte :=
  match c with
  | .dirOut q m => if q = p then v ||| m else v
  | _ => v

namespace State

variable (s : State)

theorem perform_port (c : PrimCall) (p : Nat) : (s.perform c).port[p]? = (s.port[p]?).map (fun v => c.onPort p v) := by
  cases c with
  | portSet q m => by_cases h : q = p <;> simp [perform, PrimCall.onPort, h]
  | portClear q m => by_cases h : q = p <;> simp [perform, PrimCall.onPort, h]
  | dirOut q m => simp [perform, PrimCall.onPort]

theorem perform_dir (c : PrimCall) (p : Nat) : (s.perform c).dir[p]? = (s.dir[p]?).map (fun v => c.onDir p v) := by
  cases c with
  | dirOut q m => by_cases h : q = p <;> simp [perform, PrimCall.onDir, h]
  | portSet q m => simp [perform, PrimCall.onDir]
  | portClear q m => simp [perform, PrimCall.onDir]

/-- Calls in order, on one output register. -/
theorem performAll_port (cs : List PrimCall) (p : Nat) :
    (s.performAll cs).port[p]? = (s.port[p]?).map (fun v => cs.foldl (fun v c => c.onPort p v) v) := by
  induction cs generalizing s with
  | nil => simp
  | cons c cs ih => simp [ih, perform_port, Function.comp_def]

/-- Calls in order, on one direction register. -/
theorem performAll_dir (cs : List PrimCall) (p : Nat) :
    (s.performAll cs).dir[p]? = (s.dir[p]?).map (fun v => cs.foldl (fun v c => c.onDir p v) v) := by
  induction cs generalizing s with
  | nil => simp
  | cons c cs ih => simp [ih, perform_dir, Function.comp_def]

end State

/-- A byte with the bits of a mask at one level. -/
def setLevel (m : Byte) (level : Bool) (v : Byte) : Byte := if level then v ||| m else v &&& ~~~m

theorem setLevel_getLsbD (m v : Byte) (level : Bool) (b : Nat) :
    (setLevel m level v).getLsbD b = if m.getLsbD b then level else v.getLsbD b := by
  by_cases hb : b < 8
  · rw [BitVec.getLsbD_eq_getElem hb, BitVec.getLsbD_eq_getElem hb, BitVec.getLsbD_eq_getElem hb]
    cases level <;> cases h : m[b] <;> simp [setLevel, h]
  · simp [BitVec.getLsbD_of_ge _ _ (Nat.le_of_not_lt hb)]

/-- The same, for the byte of a mask. -/
theorem setLevel_hasPin (m : PortMask) (p : Nat) (v : Byte) (level : Bool) (b : Nat) :
    (setLevel (m.byte p) level v).getLsbD b = if m.hasPin p b then level else v.getLsbD b := setLevel_getLsbD _ _ _ _

@[simp] theorem setLevel_zero (level : Bool) (v : Byte) : setLevel 0#8 level v = v := by
  apply BitVec.eq_of_getLsbD_eq
  intro b _
  simp [setLevel_getLsbD]

/-- The calls of a drive on one output register: the mask's bits take the level (40_lookup.md R103). -/
theorem groupCalls_onPort (n : Nat) (m : PortMask) (level : Bool) (p : Nat) (v : Byte) :
    (groupCalls n m level).foldl (fun v c => c.onPort p v) v =
      if p < n then setLevel (m.byte p) level v else v := by
  induction n with
  | zero => simp [groupCalls]
  | succ n ih =>
    have hs : groupCalls (n + 1) m level = groupCalls n m level ++
        (if m.byte n = 0#8 then [] else
          [if level then PrimCall.portSet n (m.byte n) else PrimCall.portClear n (m.byte n)]) := by
      simp only [groupCalls, List.range_succ, List.filterMap_append]
      by_cases h : m.byte n = 0#8 <;> simp [h]
    rw [hs, List.foldl_append, ih]
    rcases Nat.lt_trichotomy p n with h | h | h
    · have h1 : p < n + 1 := by omega
      have h2 : n ≠ p := by omega
      by_cases hz : m.byte n = 0#8 <;> cases level <;> simp [hz, h, h1, h2, PrimCall.onPort]
    · subst h
      by_cases hz : m.byte p = 0#8
      · simp [hz]
      · cases level <;> simp [hz, PrimCall.onPort, setLevel]
    · have h1 : ¬ p < n + 1 := by omega
      have h2 : n ≠ p := by omega
      by_cases hz : m.byte n = 0#8 <;> cases level <;> simp [hz, h1, h2, Nat.not_lt.2 (Nat.le_of_lt h), PrimCall.onPort]

theorem dirCalls_onDir (n : Nat) (m : PortMask) (p : Nat) (v : Byte) :
    (dirCalls n m).foldl (fun v c => c.onDir p v) v = if p < n then v ||| m.byte p else v := by
  induction n with
  | zero => simp [dirCalls]
  | succ n ih =>
    have hs : dirCalls (n + 1) m = dirCalls n m ++
        (if m.byte n = 0#8 then [] else [PrimCall.dirOut n (m.byte n)]) := by
      simp only [dirCalls, List.range_succ, List.filterMap_append]
      by_cases h : m.byte n = 0#8 <;> simp [h]
    rw [hs, List.foldl_append, ih]
    rcases Nat.lt_trichotomy p n with h | h | h
    · have h1 : p < n + 1 := by omega
      have h2 : n ≠ p := by omega
      by_cases hz : m.byte n = 0#8 <;> simp [hz, h, h1, h2, PrimCall.onDir]
    · subst h
      by_cases hz : m.byte p = 0#8 <;> simp [hz, PrimCall.onDir]
    · have h1 : ¬ p < n + 1 := by omega
      have h2 : n ≠ p := by omega
      by_cases hz : m.byte n = 0#8 <;> simp [hz, h1, h2, Nat.not_lt.2 (Nat.le_of_lt h), PrimCall.onDir]

theorem mem_groupCalls {n : Nat} {m : PortMask} {level : Bool} {c : PrimCall} (h : c ∈ groupCalls n m level) :
    ∃ p, p < n ∧ m.byte p ≠ 0#8 ∧ c = if level then .portSet p (m.byte p) else .portClear p (m.byte p) := by
  simp only [groupCalls, List.mem_filterMap, List.mem_range] at h
  obtain ⟨p, hp, hc⟩ := h
  by_cases hz : m.byte p = 0#8
  · simp [hz] at hc
  · simp only [hz, if_false, Option.some.injEq] at hc
    exact ⟨p, hp, hz, hc.symm⟩

theorem mem_dirCalls {n : Nat} {m : PortMask} {c : PrimCall} (h : c ∈ dirCalls n m) :
    ∃ p, p < n ∧ m.byte p ≠ 0#8 ∧ c = .dirOut p (m.byte p) := by
  simp only [dirCalls, List.mem_filterMap, List.mem_range] at h
  obtain ⟨p, hp, hc⟩ := h
  by_cases hz : m.byte p = 0#8
  · simp [hz] at hc
  · simp only [hz, if_false, Option.some.injEq] at hc
    exact ⟨p, hp, hz, hc.symm⟩

/-- The calls over the ports with a non-zero byte, as a filter and a map. -/
theorem filterMap_nonzero (ps : List Nat) (m : PortMask) (f : Nat → PrimCall) :
    ps.filterMap (fun p => if m.byte p = 0#8 then none else some (f p)) =
      (ps.filter (fun p => m.byte p != 0)).map f := by
  induction ps with
  | nil => rfl
  | cons p ps ih => by_cases h : m.byte p = 0#8 <;> simp [h, ih]

theorem groupCalls_onDir (n : Nat) (m : PortMask) (level : Bool) (p : Nat) (v : Byte) :
    (groupCalls n m level).foldl (fun v c => c.onDir p v) v = v := by
  suffices H : ∀ cs : List PrimCall, (∀ c ∈ cs, ∀ v, c.onDir p v = v) → ∀ v, cs.foldl (fun v c => c.onDir p v) v = v from
    H _ (fun c hc v => by
      obtain ⟨q, -, -, rfl⟩ := mem_groupCalls hc
      cases level <;> rfl) v
  intro cs hcs
  induction cs with
  | nil => simp
  | cons c cs ih =>
    intro v
    rw [List.foldl_cons, hcs c (by simp), ih (fun d hd => hcs d (by simp [hd]))]

theorem dirCalls_onPort (n : Nat) (m : PortMask) (p : Nat) (v : Byte) :
    (dirCalls n m).foldl (fun v c => c.onPort p v) v = v := by
  suffices H : ∀ cs : List PrimCall, (∀ c ∈ cs, ∀ v, c.onPort p v = v) → ∀ v, cs.foldl (fun v c => c.onPort p v) v = v from
    H _ (fun c hc v => by
      obtain ⟨q, -, -, rfl⟩ := mem_dirCalls hc
      rfl) v
  intro cs hcs
  induction cs with
  | nil => simp
  | cons c cs ih =>
    intro v
    rw [List.foldl_cons, hcs c (by simp), ih (fun d hd => hcs d (by simp [hd]))]

/-- A drive makes at most one call per port. -/
theorem groupCalls_length (n : Nat) (m : PortMask) (level : Bool) : (groupCalls n m level).length ≤ n := by
  simpa [groupCalls] using List.length_filterMap_le (fun p => if m.byte p = 0#8 then none
    else some (if level then PrimCall.portSet p (m.byte p) else .portClear p (m.byte p))) (List.range n)

theorem dirCalls_length (n : Nat) (m : PortMask) : (dirCalls n m).length ≤ n := by
  simpa [dirCalls] using List.length_filterMap_le (fun p => if m.byte p = 0#8 then none
    else some (PrimCall.dirOut p (m.byte p))) (List.range n)

namespace State

variable (s : State)

/-! ### driveGroup -/

@[simp] theorem driveGroup_dir (m : PortMask) (level : Bool) : (s.driveGroup m level).dir = s.dir := by
  apply List.ext_getElem?
  intro p
  simp [driveGroup, performAll_dir, groupCalls_onDir]

/-- `driveGroup` on one output register (40_lookup.md R103). -/
theorem driveGroup_port (m : PortMask) (level : Bool) (p : Nat) :
    (s.driveGroup m level).port[p]? =
      if p < s.config.nports then (s.port[p]?).map (setLevel (m.byte p) level) else s.port[p]? := by
  simp only [driveGroup, performAll_port, groupCalls_onPort]
  by_cases h : p < s.config.nports <;> simp [h]

@[simp] theorem driveGroup_trace (m : PortMask) (level : Bool) :
    (s.driveGroup m level).trace = s.trace ++ groupCalls s.config.nports m level := by simp [driveGroup]

@[simp] theorem driveGroup_config (m : PortMask) (level : Bool) : (s.driveGroup m level).config = s.config := by
  simp [driveGroup]

/-- `driveGroup` on one pin: the mask's pins take the level, every other pin keeps its own (40_lookup.md R103). -/
theorem driveGroup_portBit (m : PortMask) (level : Bool) {p : Nat} (hp : p < s.config.nports) (hl : p < s.port.length)
    (b : Nat) : (s.driveGroup m level).portBit p b = if m.hasPin p b then level else s.portBit p b := by
  simp [portBit, readPort, driveGroup_port, hp, List.getElem?_eq_getElem hl, setLevel_getLsbD, PortMask.hasPin]

/-- `driveGroup` leaves a port at or beyond NPORTS as it was. -/
theorem driveGroup_portBit_beyond (m : PortMask) (level : Bool) {p : Nat} (hp : ¬ p < s.config.nports) (b : Nat) :
    (s.driveGroup m level).portBit p b = s.portBit p b := by
  simp [portBit, readPort, driveGroup_port, hp]

/-- `driveGroup` on a pin outside its mask, wherever the pin is. -/
theorem driveGroup_portBit_outside (m : PortMask) (level : Bool) {p b : Nat} (h : m.hasPin p b = false) :
    (s.driveGroup m level).portBit p b = s.portBit p b := by
  have hm : (m.byte p).getLsbD b = false := h
  by_cases hp : p < s.config.nports
  · cases hl : s.port[p]? <;> simp [portBit, readPort, driveGroup_port, hp, hl, setLevel_getLsbD, hm]
  · exact s.driveGroup_portBit_beyond m level hp b

/-! ### States pin by pin -/

theorem getLsbD_port {p : Nat} (hl : p < s.port.length) (b : Nat) : (s.port[p]).getLsbD b = s.portBit p b := by
  simp [portBit, readPort, List.getElem?_eq_getElem hl]

theorem getLsbD_dir {p : Nat} (hl : p < s.dir.length) (b : Nat) : (s.dir[p]).getLsbD b = s.dirBit p b := by
  simp [dirBit, readDir, List.getElem?_eq_getElem hl]

/-- Output registers with equal pins are equal. -/
theorem port_ext {s t : State} (hl : s.port.length = t.port.length) (h : ∀ p b, s.portBit p b = t.portBit p b) :
    s.port = t.port := by
  apply List.ext_getElem hl
  intro p h1 h2
  apply BitVec.eq_of_getLsbD_eq
  intro b _
  rw [s.getLsbD_port h1, t.getLsbD_port h2, h]

/-- Direction registers with equal pins are equal. -/
theorem dir_ext {s t : State} (hl : s.dir.length = t.dir.length) (h : ∀ p b, s.dirBit p b = t.dirBit p b) :
    s.dir = t.dir := by
  apply List.ext_getElem hl
  intro p h1 h2
  apply BitVec.eq_of_getLsbD_eq
  intro b _
  rw [s.getLsbD_dir h1, t.getLsbD_dir h2, h]

theorem portBit_congr {s t : State} (h : s.port = t.port) (p b : Nat) : s.portBit p b = t.portBit p b := by
  simp [portBit, readPort, h]

theorem dirBit_congr {s t : State} (h : s.dir = t.dir) (p b : Nat) : s.dirBit p b = t.dirBit p b := by
  simp [dirBit, readDir, h]

/-! ### externalWrite -/

theorem getD_modify (l : List Byte) (p q : Nat) (f : Byte → Byte) (hp : p < l.length) :
    ((l.modify p f)[q]?).getD 0 = if q = p then f (l[q]?.getD 0) else l[q]?.getD 0 := by
  by_cases h : q = p
  · subst h; simp [List.getElem?_eq_getElem hp]
  · have : p ≠ q := fun e => h e.symm
    simp [h, this]

/-- The bits of a mask taken from another byte. -/
theorem merge_getLsbD (v m x : Byte) (b : Nat) :
    ((v &&& ~~~m) ||| (x &&& m)).getLsbD b = if m.getLsbD b then x.getLsbD b else v.getLsbD b := by
  by_cases hb : b < 8
  · simp only [BitVec.getLsbD_or, BitVec.getLsbD_and, BitVec.getLsbD_not, hb, decide_true, Bool.true_and]
    cases m.getLsbD b <;> simp
  · simp [BitVec.getLsbD_of_ge _ _ (Nat.le_of_not_lt hb)]

/-- A write of another subsystem, pin by pin, on PORT (20_memory.md R64). -/
theorem externalWrite_portBit (r : PortReg) (p : Nat) (mask value : Byte) (hp : p < s.port.length) (q b : Nat) :
    (s.externalWrite r p mask value).portBit q b =
      if r = .out ∧ q = p ∧ mask.getLsbD b = true then value.getLsbD b else s.portBit q b := by
  cases r
  · simp only [portBit, readPort, externalWrite, getD_modify _ _ _ _ hp]
    by_cases h : q = p
    · rw [if_pos h, merge_getLsbD]; simp [h]
    · simp [h]
  · simp [portBit, readPort, externalWrite]

/-- A write of another subsystem, pin by pin, on DIR (20_memory.md R64). -/
theorem externalWrite_dirBit (r : PortReg) (p : Nat) (mask value : Byte) (hp : p < s.dir.length) (q b : Nat) :
    (s.externalWrite r p mask value).dirBit q b =
      if r = .dir ∧ q = p ∧ mask.getLsbD b = true then value.getLsbD b else s.dirBit q b := by
  cases r
  · simp [dirBit, readDir, externalWrite]
  · simp only [dirBit, readDir, externalWrite, getD_modify _ _ _ _ hp]
    by_cases h : q = p
    · rw [if_pos h, merge_getLsbD]; simp [h]
    · simp [h]

@[simp] theorem externalWrite_port_length (r : PortReg) (p : Nat) (mask value : Byte) :
    (s.externalWrite r p mask value).port.length = s.port.length := by cases r <;> simp [externalWrite]

@[simp] theorem externalWrite_dir_length (r : PortReg) (p : Nat) (mask value : Byte) :
    (s.externalWrite r p mask value).dir.length = s.dir.length := by cases r <;> simp [externalWrite]

end State

end Sys2Proof.Machine
end

