-- ==== Sys2Proof/Laws/Drive.lean ====
section
/-!
SUPPORT. The drive procedures as lists of calls, and what the blank and the light procedures leave on each pin.
-/

namespace Sys2Proof.Machine

/-- The calls of `blankAll` (40_lookup.md R106). -/
def blankCalls (c : Config) : List PrimCall :=
  groupCalls c.nports c.allDigitsMask (digitLevel c.pol false) ++
    groupCalls c.nports c.allSegmentsMask (segLevel c.pol false)

/-- The calls of `driveSegment(id, true)` (40_lookup.md R105). -/
def segmentCalls (c : Config) (id : SegmentId) : List PrimCall :=
  groupCalls c.nports (c.maskForSegment id) (segLevel c.pol true)

/-- The calls of `lightSegs` over a list of segments (40_lookup.md R108). -/
def lightCalls (c : Config) (segs : Byte) (ids : List SegmentId) : List PrimCall :=
  ids.flatMap fun id => if inSegs segs id then segmentCalls c id else []

/-- The calls of `driveDigit(s, true)` (40_lookup.md R104). -/
def digitCalls (c : Config) (slot : Fin 4) : List PrimCall :=
  groupCalls c.nports (c.maskForDigit slot) (digitLevel c.pol true)

namespace State

variable (s : State)

theorem driveGroup_eq (m : PortMask) (level : Bool) :
    s.driveGroup m level = s.performAll (groupCalls s.config.nports m level) := rfl

theorem blankAll_eq : s.blankAll = s.performAll (blankCalls s.config) := by
  simp [blankAll, driveGroup_eq, blankCalls, performAll_append]

theorem driveSegment_true_eq (id : SegmentId) : s.driveSegment id true = s.performAll (segmentCalls s.config id) := rfl

theorem driveDigit_true_eq (slot : Fin 4) : s.driveDigit slot true = s.performAll (digitCalls s.config slot) := rfl

theorem foldl_lightSegs_eq (segs : Byte) (ids : List SegmentId) :
    ids.foldl (fun t id => if inSegs segs id then t.driveSegment id true else t) s =
      s.performAll (lightCalls s.config segs ids) := by
  induction ids generalizing s with
  | nil => rfl
  | cons id ids ih =>
    rw [List.foldl_cons, ih]
    cases h : inSegs segs id <;>
      simp [lightCalls, h, driveSegment_true_eq, performAll_append]

theorem lightSegs_eq (segs : Byte) :
    s.lightSegs segs = s.performAll (lightCalls s.config segs SegmentId.all) := s.foldl_lightSegs_eq segs _

theorem lightDp_eq (fires : Bool) :
    s.lightDp fires = s.performAll (if fires then segmentCalls s.config .dp else []) := by
  cases fires <;> simp [lightDp, driveSegment_true_eq]

theorem outputOwned_eq : s.outputOwned = s.performAll (dirCalls s.config.nports s.config.own) := rfl

end State

/-- The calls of ADVANCE before the cursor moves (43_multiplex.md R135). -/
def advanceCalls (s : State) : List PrimCall :=
  blankCalls s.config ++ lightCalls s.config (s.config.segmentsFor s.buf[s.cur]) SegmentId.all ++
    (if s.dpFires then segmentCalls s.config .dp else []) ++ digitCalls s.config s.cur

/-- The calls of TEST before the cursors move (43_multiplex.md R138). -/
def testCalls (s : State) : List PrimCall :=
  blankCalls s.config ++ lightCalls s.config (s.config.entrySegs s.symcur.val) SegmentId.all ++
    digitCalls s.config s.cur

/-- The calls of BEGIN (41_init_blank.md R110). -/
def beginCalls (s : State) : List PrimCall := dirCalls s.config.nports s.config.own ++ blankCalls s.config

/-- BEGIN is its calls. -/
theorem execBegin_eq (s : State) : execBegin s = .next (s.performAll (beginCalls s)) := by
  simp [execBegin, beginCalls, State.outputOwned_eq, State.blankAll_eq, State.performAll_append]

/-- BLANK is its calls. -/
theorem execBlank_eq (s : State) : execBlank s = .next (s.performAll (blankCalls s.config)) := by
  simp [execBlank, State.blankAll_eq]

/-- ADVANCE is its calls and the move of CUR. -/
theorem execAdvance_eq (s : State) : execAdvance s = .next ((s.performAll (advanceCalls s)).setCur s.nextCur) := by
  simp [execAdvance, advanceCalls, State.blankAll_eq, State.lightSegs_eq, State.lightDp_eq, State.driveDigit_true_eq,
    State.performAll_append]

/-- TEST is its calls and the move of both cursors. -/
theorem execTest_eq (s : State) : execTest s =
    .next (((s.performAll (testCalls s)).setCur s.testCur).setSymcur s.nextSymcur) := by
  simp [execTest, testCalls, State.blankAll_eq, State.lightSegs_eq, State.driveDigit_true_eq, State.performAll_append]

/-! ### What calls do to a pin -/

namespace State

variable (s : State)

theorem performAll_portBit (cs : List PrimCall) {p : Nat} (hl : p < s.port.length) (b : Nat) :
    (s.performAll cs).portBit p b = (cs.foldl (fun v c => c.onPort p v) s.port[p]).getLsbD b := by
  simp [portBit, readPort, performAll_port, List.getElem?_eq_getElem hl]

/-- The pins of the blank pattern (40_lookup.md R107). -/
theorem blankCalls_portBit (c : Config) {p : Nat} (hp : p < c.nports) (v : Byte) (b : Nat) :
    ((blankCalls c).foldl (fun v c => c.onPort p v) v).getLsbD b =
      if c.allSegmentsMask.hasPin p b then !c.pol.segActive
      else if c.allDigitsMask.hasPin p b then !c.pol.digitActive else v.getLsbD b := by
  rw [blankCalls, List.foldl_append, groupCalls_onPort, groupCalls_onPort]
  simp only [hp, if_true, setLevel_hasPin]
  simp [digitLevel, segLevel]

/-- Segments driven active, pin by pin (40_lookup.md R108). -/
theorem lightCalls_portBit (c : Config) (segs : Byte) {p : Nat} (hp : p < c.nports) (v : Byte) (b : Nat)
    (ids : List SegmentId) :
    ((lightCalls c segs ids).foldl (fun v c => c.onPort p v) v).getLsbD b =
      if ids.any (fun id => inSegs segs id && (c.maskForSegment id).hasPin p b) then c.pol.segActive
      else v.getLsbD b := by
  induction ids generalizing v with
  | nil => simp [lightCalls]
  | cons id ids ih =>
    have hs : lightCalls c segs (id :: ids) =
        (if inSegs segs id then segmentCalls c id else []) ++ lightCalls c segs ids := by simp [lightCalls]
    rw [hs, List.foldl_append, ih, List.any_cons]
    cases h : inSegs segs id
    · simp
    · simp only [if_true, segmentCalls, groupCalls_onPort, hp, setLevel_hasPin, Bool.true_and]
      by_cases h1 : (c.maskForSegment id).hasPin p b <;> simp [h1, segLevel]

theorem digitCalls_portBit (c : Config) (slot : Fin 4) {p : Nat} (hp : p < c.nports) (v : Byte) (b : Nat) :
    ((digitCalls c slot).foldl (fun v c => c.onPort p v) v).getLsbD b =
      if (c.maskForDigit slot).hasPin p b then c.pol.digitActive else v.getLsbD b := by
  simp [digitCalls, groupCalls_onPort, hp, setLevel_hasPin, digitLevel]

theorem segmentCalls_portBit (c : Config) (id : SegmentId) {p : Nat} (hp : p < c.nports) (v : Byte) (b : Nat) :
    ((segmentCalls c id).foldl (fun v c => c.onPort p v) v).getLsbD b =
      if (c.maskForSegment id).hasPin p b then c.pol.segActive else v.getLsbD b := by
  simp [segmentCalls, groupCalls_onPort, hp, setLevel_hasPin, segLevel]

end State

/-! ### Every call is an owned one (20_memory.md R49, R55) -/

/-- A mask whose pins are all owned. -/
def Inside (c : Config) (m : PortMask) : Prop := ∀ p b, m.hasPin p b = true → c.own.hasPin p b = true

theorem inside_byte {c : Config} {m : PortMask} (h : Inside c m) (p : Nat) : m.byte p &&& ~~~c.own.byte p = 0#8 := by
  apply BitVec.eq_of_getLsbD_eq
  intro b hb
  have := h p b
  simp only [PortMask.hasPin] at this
  cases hm : (m.byte p).getLsbD b <;> simp_all

theorem inside_own (c : Config) : Inside c c.own := fun _ _ h => h

theorem inside_allSegments (c : Config) : Inside c c.allSegmentsMask := fun p b h => by simp [c.own_hasPin p b, h]

theorem inside_allDigits (c : Config) : Inside c c.allDigitsMask := fun p b h => by simp [c.own_hasPin p b, h]

theorem inside_segment (c : Config) (id : SegmentId) : Inside c (c.maskForSegment id) := fun p b h =>
  inside_allSegments c p b ((c.allSegmentsMask_hasPin p b).2 ⟨id, h⟩)

theorem inside_digit (c : Config) (slot : Fin 4) : Inside c (c.maskForDigit slot) := fun p b h =>
  inside_allDigits c p b ((c.allDigitsMask_hasPin p b).2 ⟨slot, h⟩)

theorem groupCalls_owned {c : Config} {m : PortMask} (h : Inside c m) (level : Bool) {k : PrimCall}
    (hk : k ∈ groupCalls c.nports m level) : k.owned c = true := by
  obtain ⟨p, hp, hz, rfl⟩ := mem_groupCalls hk
  cases level <;> simp [PrimCall.owned, hp, hz, inside_byte h p]

theorem dirCalls_owned {c : Config} {m : PortMask} (h : Inside c m) {k : PrimCall}
    (hk : k ∈ dirCalls c.nports m) : k.owned c = true := by
  obtain ⟨p, hp, hz, rfl⟩ := mem_dirCalls hk
  simp [PrimCall.owned, hp, hz, inside_byte h p]

theorem blankCalls_owned {c : Config} {k : PrimCall} (hk : k ∈ blankCalls c) : k.owned c = true := by
  rcases List.mem_append.1 hk with h | h
  · exact groupCalls_owned (inside_allDigits c) _ h
  · exact groupCalls_owned (inside_allSegments c) _ h

theorem segmentCalls_owned {c : Config} {id : SegmentId} {k : PrimCall} (hk : k ∈ segmentCalls c id) :
    k.owned c = true := groupCalls_owned (inside_segment c id) _ hk

theorem lightCalls_owned {c : Config} {segs : Byte} {ids : List SegmentId} {k : PrimCall}
    (hk : k ∈ lightCalls c segs ids) : k.owned c = true := by
  obtain ⟨id, -, h⟩ := List.mem_flatMap.1 hk
  split at h
  · exact segmentCalls_owned h
  · simp at h

theorem digitCalls_owned {c : Config} {slot : Fin 4} {k : PrimCall} (hk : k ∈ digitCalls c slot) :
    k.owned c = true := groupCalls_owned (inside_digit c slot) _ hk

theorem beginCalls_owned {s : State} {k : PrimCall} (hk : k ∈ beginCalls s) : k.owned s.config = true := by
  rcases List.mem_append.1 hk with h | h
  · exact dirCalls_owned (inside_own _) h
  · exact blankCalls_owned h

theorem advanceCalls_owned {s : State} {k : PrimCall} (hk : k ∈ advanceCalls s) : k.owned s.config = true := by
  simp only [advanceCalls, List.mem_append] at hk
  rcases hk with ((h | h) | h) | h
  · exact blankCalls_owned h
  · exact lightCalls_owned h
  · split at h
    · exact segmentCalls_owned h
    · simp at h
  · exact digitCalls_owned h

theorem testCalls_owned {s : State} {k : PrimCall} (hk : k ∈ testCalls s) : k.owned s.config = true := by
  simp only [testCalls, List.mem_append] at hk
  rcases hk with (h | h) | h
  · exact blankCalls_owned h
  · exact lightCalls_owned h
  · exact digitCalls_owned h

/-- An owned call changes no bit outside OWN. -/
theorem owned_call_outside {c : Config} {k : PrimCall} (hk : k.owned c = true) {p b : Nat}
    (ho : c.own.hasPin p b = false) (v : Byte) :
    (k.onPort p v).getLsbD b = v.getLsbD b ∧ (k.onDir p v).getLsbD b = v.getLsbD b := by
  have key : ∀ m : Byte, m &&& ~~~c.own.byte p = 0#8 → m.getLsbD b = false := by
    intro m h
    have := congrArg (fun x => x.getLsbD b) h
    by_cases hb : b < 8
    · have ho' : (c.own.byte p).getLsbD b = false := ho
      rw [BitVec.getLsbD_eq_getElem hb] at ho' ⊢
      simpa [hb, ho'] using this
    · exact BitVec.getLsbD_of_ge _ _ (Nat.le_of_not_lt hb)
  by_cases hb : b < 8
  · cases k with
    | portSet q m =>
      simp only [PrimCall.owned, Bool.and_eq_true, beq_iff_eq, decide_eq_true_eq] at hk
      by_cases h : q = p
      · subst h; simp [PrimCall.onPort, PrimCall.onDir, key m hk.2]
      · simp [PrimCall.onPort, PrimCall.onDir, h]
    | portClear q m =>
      simp only [PrimCall.owned, Bool.and_eq_true, beq_iff_eq, decide_eq_true_eq] at hk
      by_cases h : q = p
      · subst h
        have hm := key m hk.2
        rw [BitVec.getLsbD_eq_getElem hb] at hm
        simp [PrimCall.onPort, PrimCall.onDir, hb, hm]
      · simp [PrimCall.onPort, PrimCall.onDir, h]
    | dirOut q m =>
      simp only [PrimCall.owned, Bool.and_eq_true, beq_iff_eq, decide_eq_true_eq] at hk
      by_cases h : q = p
      · subst h; simp [PrimCall.onPort, PrimCall.onDir, key m hk.2]
      · simp [PrimCall.onPort, PrimCall.onDir, h]
  · simp [BitVec.getLsbD_of_ge _ _ (Nat.le_of_not_lt hb)]

/-- Owned calls change no bit outside OWN, in either register of any port. -/
theorem State.performAll_outside (s : State) {cs : List PrimCall} (hcs : ∀ k ∈ cs, k.owned s.config = true)
    {p b : Nat} (ho : s.config.own.hasPin p b = false) :
    (s.performAll cs).portBit p b = s.portBit p b ∧ (s.performAll cs).dirBit p b = s.dirBit p b := by
  induction cs generalizing s with
  | nil => simp
  | cons k cs ih =>
    have hk := hcs k (by simp)
    obtain ⟨h1, h2⟩ := ih (s.perform k) (fun d hd => by simpa using hcs d (by simp [hd])) (by simpa using ho)
    rw [State.performAll_cons, h1, h2]
    constructor
    · cases hp : s.port[p]? with
      | none => simp [portBit, readPort, perform_port, hp]
      | some v => simp [portBit, readPort, perform_port, hp, (owned_call_outside hk ho v).1]
    · cases hp : s.dir[p]? with
      | none => simp [dirBit, readDir, perform_dir, hp]
      | some v => simp [dirBit, readDir, perform_dir, hp, (owned_call_outside hk ho v).2]

/-- A state whose ports are those after owned calls agrees outside OWN (20_memory.md R49). -/
theorem sameOutsideOwn_of_calls {s t : State} {cs : List PrimCall} (hcs : ∀ k ∈ cs, k.owned s.config = true)
    (hp : t.port = (s.performAll cs).port) (hd : t.dir = (s.performAll cs).dir) : s.SameOutsideOwn t := by
  refine ⟨by simp [hp], by simp [hd], fun p b ho => ?_⟩
  obtain ⟨h1, h2⟩ := s.performAll_outside hcs ho
  exact ⟨(State.portBit_congr hp p b).trans h1, (State.dirBit_congr hd p b).trans h2⟩

/-! ### Blank -/

@[simp] theorem blankCalls_onDir (c : Config) (p : Nat) (v : Byte) :
    (blankCalls c).foldl (fun v c => c.onDir p v) v = v := by
  simp [blankCalls, groupCalls_onDir]

/-- Blanking changes no direction. -/
@[simp] theorem performAll_blankCalls_dir (s : State) (c : Config) : (s.performAll (blankCalls c)).dir = s.dir := by
  apply List.ext_getElem?
  intro p
  simp [State.performAll_dir]

/-- Blanking, pin by pin (40_lookup.md R107). -/
theorem performAll_blankCalls_portBit (s : State) {p : Nat} (hp : p < s.config.nports) (hl : p < s.port.length)
    (b : Nat) : (s.performAll (blankCalls s.config)).portBit p b =
      if s.config.allSegmentsMask.hasPin p b then !s.config.pol.segActive
      else if s.config.allDigitsMask.hasPin p b then !s.config.pol.digitActive else s.portBit p b := by
  rw [State.performAll_portBit _ _ hl, State.blankCalls_portBit _ hp, State.getLsbD_port]

/-- The outputs of BEGIN change no level: its PORT is the one of BLANK. -/
theorem performAll_beginCalls_port (s : State) :
    (s.performAll (beginCalls s)).port = (s.performAll (blankCalls s.config)).port := by
  apply List.ext_getElem?
  intro p
  simp [beginCalls, State.performAll_port, List.foldl_append, dirCalls_onPort]

/-- The directions after BEGIN: the owned pins are outputs, the others as they were (41_init_blank.md R110). -/
theorem performAll_beginCalls_dirBit {s : State} (h : s.Inv) (p b : Nat) :
    (s.performAll (beginCalls s)).dirBit p b = (s.dirBit p b || s.config.own.hasPin p b) := by
  simp only [State.dirBit, State.readDir, State.performAll_dir, beginCalls, List.foldl_append, blankCalls_onDir,
    dirCalls_onDir]
  by_cases hp : p < s.config.nports
  · have : p < s.dir.length := by have := h.ports; have := h.dirs; omega
    simp [hp, List.getElem?_eq_getElem this, PortMask.hasPin]
  · have : s.config.own.hasPin p b = false := by
      cases ho : s.config.own.hasPin p b
      · rfl
      · exact absurd (Config.own_pin_port h.admitted ho) hp
    simp [hp, this]

end Sys2Proof.Machine
end

