-- ==== Sys2Proof/Laws/Encoding.lean ====
section
/-!
SUPPORT. The fields of an encoded word, and the fields of a word as its parts.
-/

namespace Sys2Proof

@[simp] theorem opField_mkWord (op arg : BitVec 8) (d : BitVec 32) : opField (mkWord op arg d) = op := by
  apply BitVec.eq_of_getLsbD_eq
  intro i hi
  simp only [opField, mkWord, BitVec.getLsbD_extractLsb', BitVec.getLsbD_append]
  simp [hi, show ¬ 40 + i < 32 by omega, show ¬ 40 + i - 32 < 8 by omega, show 40 + i - 32 - 8 = i by omega]

@[simp] theorem argField_mkWord (op arg : BitVec 8) (d : BitVec 32) : argField (mkWord op arg d) = arg := by
  apply BitVec.eq_of_getLsbD_eq
  intro i hi
  simp only [argField, mkWord, BitVec.getLsbD_extractLsb', BitVec.getLsbD_append]
  simp [hi, show ¬ 32 + i < 32 by omega, show 32 + i - 32 = i by omega]

@[simp] theorem dataField_mkWord (op arg : BitVec 8) (d : BitVec 32) : dataField (mkWord op arg d) = d := by
  apply BitVec.eq_of_getLsbD_eq
  intro i hi
  simp only [dataField, mkWord, BitVec.getLsbD_extractLsb', BitVec.getLsbD_append]
  simp [hi]

/-- A word is its three fields (30_encoding.md R65). -/
theorem mkWord_fields (w : CmdWord) : mkWord (opField w) (argField w) (dataField w) = w := by
  apply BitVec.eq_of_getLsbD_eq
  intro i hi
  simp only [opField, argField, dataField, mkWord, BitVec.getLsbD_extractLsb', BitVec.getLsbD_append]
  by_cases h1 : i < 32
  · simp [h1]
  · by_cases h2 : i - 32 < 8
    · simp [h1, h2, show 32 + (i - 32) = i by omega]
    · simp [h1, h2, show i - 32 - 8 < 8 by omega, show 40 + (i - 32 - 8) = i by omega]

/-- Masking a word masks each field. -/
theorem mkWord_and (op arg op' arg' : BitVec 8) (d d' : BitVec 32) :
    mkWord op arg d &&& mkWord op' arg' d' = mkWord (op &&& op') (arg &&& arg') (d &&& d') := by
  simp only [mkWord]
  rw [← BitVec.and_append, ← BitVec.and_append]

theorem mkWord_inj {op arg op' arg' : BitVec 8} {d d' : BitVec 32} (h : mkWord op arg d = mkWord op' arg' d') :
    op = op' ∧ arg = arg' ∧ d = d' := by
  have h1 := congrArg opField h
  have h2 := congrArg argField h
  have h3 := congrArg dataField h
  simp only [opField_mkWord, argField_mkWord, dataField_mkWord] at h1 h2 h3
  exact ⟨h1, h2, h3⟩

/-- DATA is its four characters (30_encoding.md R68). -/
theorem data_chars (d : BitVec 32) : dataChar d 3 ++ dataChar d 2 ++ dataChar d 1 ++ dataChar d 0 = d := by
  apply BitVec.eq_of_getLsbD_eq
  intro i hi
  simp only [dataChar, BitVec.getLsbD_extractLsb', BitVec.getLsbD_append]
  by_cases h1 : i < 8
  · simp [h1]
  · by_cases h2 : i - 8 < 8
    · simp [h1, h2, show 8 + (i - 8) = i by omega]
    · by_cases h3 : i - 8 - 8 < 8
      · simp [h1, h2, h3, show 16 + (i - 8 - 8) = i by omega]
      · simp [h1, h2, h3, show i - 8 - 8 - 8 < 8 by omega, show 24 + (i - 8 - 8 - 8) = i by omega]

theorem dataChar_append (c0 c1 c2 c3 : Byte) :
    dataChar (c3 ++ c2 ++ c1 ++ c0) 0 = c0 ∧ dataChar (c3 ++ c2 ++ c1 ++ c0) 1 = c1 ∧
    dataChar (c3 ++ c2 ++ c1 ++ c0) 2 = c2 ∧ dataChar (c3 ++ c2 ++ c1 ++ c0) 3 = c3 := by
  refine ⟨?_, ?_, ?_, ?_⟩ <;> apply BitVec.eq_of_getLsbD_eq <;> intro i hi <;>
    simp only [dataChar, BitVec.getLsbD_extractLsb', BitVec.getLsbD_append]
  · simp [hi]
  · simp [hi, show ¬ 8 + i < 8 by omega, show 8 + i - 8 = i by omega]
  · simp [hi, show ¬ 16 + i < 8 by omega, show ¬ 16 + i - 8 < 8 by omega, show 16 + i - 8 - 8 = i by omega]
  · simp [hi, show ¬ 24 + i < 8 by omega, show ¬ 24 + i - 8 < 8 by omega, show ¬ 24 + i - 8 - 8 < 8 by omega,
      show 24 + i - 8 - 8 - 8 = i by omega]

end Sys2Proof
end

