-- ==== Sys2Proof/Laws/Exec.lean ====
section
/-!
SUPPORT. Everything a command can do, once: the calls it makes, the registers it leaves, and that it always completes.
-/

namespace Sys2Proof.Machine

/-- The calls a command makes, in order (00_scope.md R17). -/
def commandCalls (i : Instr) (s : State) : List PrimCall :=
  match i with
  | .begin => beginCalls s
  | .blank => blankCalls s.config
  | .setstr _ _ _ _ _ => []
  | .setint _ => []
  | .setdp _ => []
  | .advance => advanceCalls s
  | .test => testCalls s

/-- What a command leaves in the registers of the DMC once its calls are made. -/
def finish (i : Instr) (s : State) (t : State) : State :=
  match i with
  | .begin => t
  | .blank => t
  | .setstr len c0 c1 c2 c3 => t.writeText len [c0, c1, c2, c3]
  | .setint v => t.writeText (dec v).length (dec v)
  | .setdp en => t.setDp en
  | .advance => t.setCur s.nextCur
  | .test => (t.setCur s.testCur).setSymcur s.nextSymcur

/-- A command is its calls and then its registers; it always completes (60_exceptions.md R155). -/
theorem exec_eq (i : Instr) (s : State) : exec i s = .next (finish i s (s.performAll (commandCalls i s))) := by
  cases i with
  | begin => exact execBegin_eq s
  | blank => exact execBlank_eq s
  | setstr len c0 c1 c2 c3 => rfl
  | setint v => rfl
  | setdp en => rfl
  | advance => exact execAdvance_eq s
  | test => exact execTest_eq s

theorem commandCalls_owned {i : Instr} {s : State} {k : PrimCall} (hk : k ∈ commandCalls i s) :
    k.owned s.config = true := by
  cases i with
  | begin => exact beginCalls_owned hk
  | blank => exact blankCalls_owned hk
  | setstr len c0 c1 c2 c3 => simp [commandCalls] at hk
  | setint v => simp [commandCalls] at hk
  | setdp en => simp [commandCalls] at hk
  | advance => exact advanceCalls_owned hk
  | test => exact testCalls_owned hk

section Finish
variable (i : Instr) (s t : State)

@[simp] theorem finish_config : (finish i s t).config = t.config := by cases i <;> rfl
@[simp] theorem finish_port : (finish i s t).port = t.port := by cases i <;> rfl
@[simp] theorem finish_dir : (finish i s t).dir = t.dir := by cases i <;> rfl
@[simp] theorem finish_trace : (finish i s t).trace = t.trace := by cases i <;> rfl
@[simp] theorem finish_refused : (finish i s t).refused = t.refused := by cases i <;> rfl
@[simp] theorem finish_refusals : (finish i s t).refusals = t.refusals := by cases i <;> rfl
@[simp] theorem finish_pending : (finish i s t).pending = t.pending := by cases i <;> rfl
@[simp] theorem finish_pos : (finish i s t).pos = t.pos := by cases i <;> rfl
@[simp] theorem finish_portBit (p b : Nat) : (finish i s t).portBit p b = t.portBit p b := by cases i <;> rfl
@[simp] theorem finish_dirBit (p b : Nat) : (finish i s t).dirBit p b = t.dirBit p b := by cases i <;> rfl

end Finish

/-- Inversion: what holds of the next state of any command. -/
theorem exec_cases {i : Instr} {s t : State} (h : exec i s = .next t) :
    t = finish i s (s.performAll (commandCalls i s)) := by
  rw [exec_eq] at h
  exact (Host.Outcome.next.inj h).symm

theorem exec_config {i : Instr} {s t : State} (h : exec i s = .next t) : t.config = s.config := by
  simp [exec_cases h]

/-! ### Cursors -/

theorem nextCur_val {s : State} (h : s.config.admitted = true) :
    s.nextCur.val = (s.cur.val + 1) % s.config.digits := by
  have h1 := Config.digits_pos h
  have h2 := Config.digits_le h
  have := Nat.mod_lt (s.cur.val + 1) h1
  simp only [State.nextCur, Fin.ofNat]
  exact Nat.mod_eq_of_lt (by omega)

theorem nextSymcur_val {s : State} (h : s.config.admitted = true) :
    s.nextSymcur.val = (s.symcur.val + 1) % s.config.symcount := by
  have h1 := Config.symcount_pos h
  have h2 := Config.symcount_le h
  have := Nat.mod_lt (s.symcur.val + 1) h1
  simp only [State.nextSymcur, Fin.ofNat]
  exact Nat.mod_eq_of_lt (by omega)

/-! ### Commands in order -/

/-- A command followed by others. -/
theorem execAll_cons (i : Instr) (is : List Instr) (s : State) :
    execAll (i :: is) s = execAll is (finish i s (s.performAll (commandCalls i s))) := by
  simp only [execAll, exec_eq]

theorem execAll_append (is js : List Instr) (s t : State) (h : execAll is s = .next t) :
    execAll (is ++ js) s = execAll js t := by
  induction is generalizing s with
  | nil => cases h; rfl
  | cons i is ih => rw [execAll_cons] at h; rw [List.cons_append, execAll_cons]; exact ih _ h

/-- A direction bit that is set stays set: the DMC never makes a pin an input (20_memory.md R52). -/
theorem performAll_dirBit_mono (s : State) (cs : List PrimCall) {p b : Nat} (h : s.dirBit p b = true) :
    (s.performAll cs).dirBit p b = true := by
  induction cs generalizing s with
  | nil => exact h
  | cons c cs ih =>
    refine ih (s.perform c) ?_
    simp only [State.dirBit, State.readDir, State.perform_dir] at h ⊢
    cases he : s.dir[p]? with
    | none => simp [he] at h
    | some v =>
      rw [he] at h
      simp only [Option.map_some, Option.getD_some] at h ⊢
      cases c with
      | dirOut q m => simp only [PrimCall.onDir]; split <;> simp [h]
      | portSet q m => exact h
      | portClear q m => exact h

/-- Commands in order always complete; they keep the configuration, the ports' number, every bit outside OWN, and every
direction bit that is set. -/
theorem execAll_next (is : List Instr) (s : State) : ∃ t, execAll is s = .next t ∧ t.config = s.config ∧
    s.SameOutsideOwn t ∧ ∀ p b, s.dirBit p b = true → t.dirBit p b = true := by
  induction is generalizing s with
  | nil => exact ⟨s, rfl, rfl, ⟨rfl, rfl, fun _ _ _ => ⟨rfl, rfl⟩⟩, fun _ _ h => h⟩
  | cons i is ih =>
    obtain ⟨t, h1, h2, ⟨h3, h4, h5⟩, h6⟩ := ih (finish i s (s.performAll (commandCalls i s)))
    refine ⟨t, by rw [execAll_cons, h1], by simpa using h2, ⟨by simpa using h3, by simpa using h4, ?_⟩, ?_⟩
    · intro p b ho
      obtain ⟨e1, e2⟩ := h5 p b (by simpa using ho)
      obtain ⟨e3, e4⟩ := s.performAll_outside (fun k hk => commandCalls_owned (i := i) hk) ho
      exact ⟨by rw [e1, finish_portBit, e3], by rw [e2, finish_dirBit, e4]⟩
    · intro p b h
      exact h6 p b (by rw [finish_dirBit]; exact performAll_dirBit_mono _ _ h)

end Sys2Proof.Machine
end

