-- ==== Sys2Proof/Laws/PerInstr.lean ====
section
/-!
SUPPORT. Statements made per instruction, one lemma per constructor of Instr.
-/

namespace Sys2Proof.Laws.EncodedRow

/-- The encoded word of a well-formed command is a word of the command's row of the opcode table
(30_encoding.md R73). -/
def Statement (i : Instr) : Prop := i.wellFormed = true → (opcodeRow i).accepts (encode i) = true

theorem begin : Statement .begin := fun _ => by decide

theorem blank : Statement .blank := fun _ => by decide

theorem setstr (len : Nat) (c0 c1 c2 c3 : Byte) : Statement (.setstr len c0 c1 c2 c3) := fun _ => by
  have hm : (0xFFF800000000 : CmdWord) = mkWord 0xFF 0xF8 0 := by decide
  have hp : (0x030000000000 : CmdWord) = mkWord 0x03 0x00 0 := by decide
  have hl : ∀ n : Fin 8, BitVec.ofNat 8 n.val &&& 0xF8 = 0x00#8 := by decide
  have hn := hl ⟨len % 8, Nat.mod_lt _ (by omega)⟩
  simp only [OpcodeRow.accepts, opcodeRow, encode, beq_iff_eq, hm, hp, mkWord_and, hn]
  simp

theorem setint (v : Int) : Statement (.setint v) := fun _ => by
  have hm : (0xFFFF00000000 : CmdWord) = mkWord 0xFF 0xFF 0 := by decide
  have hp : (0x040000000000 : CmdWord) = mkWord 0x04 0x00 0 := by decide
  simp only [OpcodeRow.accepts, opcodeRow, encode, beq_iff_eq, hm, hp, mkWord_and]
  simp

theorem setdp (en : Bool) : Statement (.setdp en) := fun _ => by cases en <;> decide

theorem advance : Statement .advance := fun _ => by decide

theorem test : Statement .test := fun _ => by decide

end Sys2Proof.Laws.EncodedRow
end

