-- ==== Sys2Proof/Laws/Render.lean ====
section
/-!
SUPPORT. The inactive and the rendered pattern (40_lookup.md R107, R109) from the bits the calls leave, and the bits of
the call sequence blank, light, select.
-/

namespace Sys2Proof

theorem inSegs_or (x y : Byte) (id : SegmentId) : inSegs (x ||| y) id = (inSegs x id || inSegs y id) := by simp [inSegs]

theorem inSegs_dp (id : SegmentId) : inSegs 0x80 id = (id == .dp) := by cases id <;> decide

theorem inSegs_blank (id : SegmentId) : inSegs 0x00 id = false := by cases id <;> decide

namespace Machine

variable {s : State}

/-- A pin whose PORT bit is not at a level is not driven to it. -/
theorem pinLevel_ne {t : State} {p b : Nat} {l : Bool} (h : t.portBit p b = !l) : t.pinLevel p b ≠ some l := by
  cases l <;> simp [State.pinLevel, h]

/-- A mask with one pin away from a level is not driven to it. -/
theorem not_driven {t : State} {m : PortMask} {l : Bool} {p b : Nat} (hp : p < t.config.nports)
    (hm : m.hasPin p b = true) (h : t.portBit p b = !l) : t.maskDriven m l = false := by
  simp only [State.maskDriven, List.all_eq_false, List.mem_range]
  refine ⟨p, hp, ?_⟩
  simp only [Bool.not_eq_true, List.all_eq_false, List.mem_range]
  refine ⟨b, PortMask.hasPin_lt hm, ?_⟩
  have := pinLevel_ne h
  simp [hm, this]

/-- The inactive pattern, from the bits a blank leaves (40_lookup.md R107). -/
theorem blanked_of_bits {t : State} (h : s.Inv) (hc : t.config = s.config)
   (hb : ∀ p b, p < s.config.nports → t.portBit p b =
      if s.config.allSegmentsMask.hasPin p b then !s.config.pol.segActive
      else if s.config.allDigitsMask.hasPin p b then !s.config.pol.digitActive else s.portBit p b) : t.Blanked := by
  intro p b hp
  rw [hc] at hp ⊢
  rw [hb p b hp]
  refine ⟨fun hd => ?_, fun hs => by simp [hs]⟩
  cases hs : s.config.allSegmentsMask.hasPin p b
  · simp [hd]
  · simp [Config.segment_digit_disjoint h.admitted hs] at hd

/-- The bits after the calls blank, light the segments of a set among `ids`, select (40_lookup.md R106, R108, R104). -/
theorem render_bits (h : s.Inv) (segs : Byte) (ids : List SegmentId) (slot : Fin 4) {p : Nat}
    (hp : p < s.config.nports) (b : Nat) :
   (s.performAll (blankCalls s.config ++ lightCalls s.config segs ids ++ digitCalls s.config slot)).portBit p b =
     if (s.config.maskForDigit slot).hasPin p b then s.config.pol.digitActive
     else if ids.any (fun id => inSegs segs id && (s.config.maskForSegment id).hasPin p b) then s.config.pol.segActive
     else if s.config.allSegmentsMask.hasPin p b then !s.config.pol.segActive
      else if s.config.allDigitsMask.hasPin p b then !s.config.pol.digitActive else s.portBit p b := by
  have hl : p < s.port.length := by have := h.ports; omega
  rw [State.performAll_portBit _ _ hl, List.foldl_append, List.foldl_append, State.digitCalls_portBit _ _ hp,
    State.lightCalls_portBit _ _ hp, State.blankCalls_portBit _ hp, State.getLsbD_port]

/-- The rendered pattern, from the bits blank, light and select leave (40_lookup.md R109). -/
theorem rendered (h : s.Inv) {t : State} (hc : t.config = s.config) (slot : Fin 4) (segs : Byte)
  (hb : ∀ p b, p < s.config.nports → t.portBit p b =
     if (s.config.maskForDigit slot).hasPin p b then s.config.pol.digitActive
     else if SegmentId.all.any (fun id => inSegs segs id && (s.config.maskForSegment id).hasPin p b) then
       s.config.pol.segActive
     else if s.config.allSegmentsMask.hasPin p b then !s.config.pol.segActive
      else if s.config.allDigitsMask.hasPin p b then !s.config.pol.digitActive else s.portBit p b) :
    t.Rendered slot segs := by
  have noseg : ∀ {d : Fin 4} {p b}, (s.config.maskForDigit d).hasPin p b = true →
      ∀ id, (s.config.maskForSegment id).hasPin p b = false := by
    intro d p b hd id
    cases hs : (s.config.maskForSegment id).hasPin p b
    · rfl
    · have := Config.segment_digit_disjoint h.admitted ((Config.allSegmentsMask_hasPin _ _ _).2 ⟨id, hs⟩)
      rw [(Config.allDigitsMask_hasPin _ _ _).2 ⟨d, hd⟩] at this; cases this
  intro p b hp
  rw [hc] at hp ⊢
  rw [hb p b hp]
  refine ⟨fun hd => by simp [hd], fun o ho hd => ?_, fun id hs => ?_⟩
  · have h1 : (s.config.maskForDigit slot).hasPin p b = false := by
      cases hh : (s.config.maskForDigit slot).hasPin p b
      · rfl
      · exact absurd (Config.digit_pin_unique h.admitted hd hh) ho
    have h2 : s.config.allSegmentsMask.hasPin p b = false := by
      cases hh : s.config.allSegmentsMask.hasPin p b
      · rfl
      · obtain ⟨id, hi⟩ := (Config.allSegmentsMask_hasPin _ _ _).1 hh
        rw [noseg hd id] at hi; cases hi
    have h3 := (Config.allDigitsMask_hasPin _ _ _).2 ⟨o, hd⟩
    simp [h1, h2, h3, noseg hd]
  · have h1 : (s.config.maskForDigit slot).hasPin p b = false := by
      cases hh : (s.config.maskForDigit slot).hasPin p b
      · rfl
      · rw [noseg hh id] at hs; cases hs
    have h2 := (Config.allSegmentsMask_hasPin _ _ _).2 ⟨id, hs⟩
    have h3 : SegmentId.all.any (fun j => inSegs segs j && (s.config.maskForSegment j).hasPin p b) =
        inSegs segs id := by
      cases hi : inSegs segs id
      · simp only [List.any_eq_false, Bool.and_eq_true, not_and, Bool.not_eq_true]
        intro j _ hj
        cases hh : (s.config.maskForSegment j).hasPin p b
        · rfl
        · rw [Config.segment_pin_unique h.admitted hs hh, hj] at hi; cases hi
      · exact List.any_eq_true.2 ⟨id, by simp, by simp [hi, hs]⟩
    rw [h3]; simp [h1, h2]

end Machine

end Sys2Proof
end

