-- ==== Sys2Proof/Laws/Step.lean ====
section
/-!
SUPPORT. What a step can do, by the event at the head of the host's list.
-/

namespace Sys2Proof.Machine

theorem step_idle {s : State} (h : s.pending = []) : step s = .next s := by simp [step, h]

theorem step_cons {s : State} {e : Event} {rest : List Event} (h : s.pending = e :: rest) :
    step s = deliver e rest s := by simp [step, h]

/-- A write of another subsystem that goes on: the port exists, no written bit is owned (20_memory.md R64). -/
theorem externalEvent_cases {r : PortReg} {p : Nat} {mask value : Byte} {s t : State}
    (h : externalEvent r p mask value s = .next t) :
    p < s.port.length ∧ mask &&& s.config.own.byte p = 0 ∧ t = s.externalWrite r p mask value := by
  unfold externalEvent at h
  by_cases hl : s.port.length ≤ p
  · rw [if_pos hl] at h; cases h
  · by_cases ho : mask &&& s.config.own.byte p = 0
    · rw [if_neg hl, if_neg (not_not.2 ho)] at h
      exact ⟨by omega, ho, (Host.Outcome.next.inj h).symm⟩
    · rw [if_neg hl, if_pos ho] at h; cases h

/-- A step that goes on: the host is idle, a command runs, a word is refused, a new instance starts, or another
subsystem writes. -/
theorem step_cases {s t : State} (h : step s = .next t) :
    (s.pending = [] ∧ t = s) ∨
    (∃ w rest i, s.pending = .command w :: rest ∧ decode w = .command i ∧ exec i (s.takeCommand rest) = .next t) ∨
    (∃ w rest r, s.pending = .command w :: rest ∧ decode w = .refuse r ∧
      t = (s.takeCommand rest).refuseWord w r) ∨
    (∃ c rest, s.pending = .construct c :: rest ∧ c.config.failing = none ∧
      t = (s.takeOther rest).newInstance c.config) ∨
    (∃ r p mask value rest, s.pending = .external r p mask value :: rest ∧ p < s.port.length ∧
      mask &&& s.config.own.byte p = 0 ∧ t = (s.takeOther rest).externalWrite r p mask value) := by
  match hp : s.pending with
  | [] =>
    rw [step_idle hp] at h
    exact .inl ⟨rfl, (Host.Outcome.next.inj h).symm⟩
  | .command w :: rest =>
    rw [step_cons hp] at h
    cases hd : decode w with
    | command i => exact .inr (.inl ⟨w, rest, i, rfl, hd, by simpa [deliver, runWord, hd] using h⟩)
    | refuse r =>
      simp only [deliver, runWord, hd] at h
      exact .inr (.inr (.inl ⟨w, rest, r, rfl, hd, (Host.Outcome.next.inj h).symm⟩))
  | .construct c :: rest =>
    rw [step_cons hp] at h
    simp only [deliver, construct] at h
    split at h
    · cases h
    · next hf => exact .inr (.inr (.inr (.inl ⟨c, rest, rfl, hf, (Host.Outcome.next.inj h).symm⟩)))
  | .external r p mask value :: rest =>
    rw [step_cons hp] at h
    obtain ⟨hl, ho, ht⟩ := externalEvent_cases (s := s.takeOther rest) h
    exact .inr (.inr (.inr (.inr ⟨r, p, mask, value, rest, rfl, hl, ho, ht⟩)))

end Sys2Proof.Machine
end

