-- ==== Sys2Proof/Tests/Slice0.lean ====
section
/-!
SUPPORT. Tests on fixed values, their expected results taken from 95_test_vectors.md or by hand from the rules; and for every
obligation with hypotheses a concrete state and operands that meet them. E<n>, V<n>, P<n> are entries of that file.
-/

namespace Sys2Proof.Tests

open Sys2Proof Sys2Proof.Machine

/-! ### Small states -/

/-- A state right after CONSTRUCT with these ports. -/
def made (c : ConstructInput) (port dir : List Byte) : State :=
  State.fresh c.config (fun p => port.getD p 0) (fun p => dir.getD p 0)

/-- A state with this buffer, CUR, DP and SYMCUR. -/
def State.holding (buf : Vector Byte 4) (cur : Fin 4) (dp : Bool) (symcur : Fin 256) (s : State) : State :=
  { s with buf := buf, cur := cur, dp := dp, symcur := symcur }

/-- REF-A, common anode, four digits, after BEGIN from zero ports (V5). -/
def litA : State := made (refA 0x04) [0x00, 0x00, 0xFF] [0x0F, 0x00, 0xFF]

/-- REF-A, common anode, before BEGIN, the ports of P1. -/
def rawA : State := made (refA 0x04) [0xA5, 0x3C, 0x00] [0xF0, 0xFF, 0x00]

/-- REF-B, common cathode, two digits, after BEGIN from zero ports (V5), content "25" (V9). -/
def litB : State := State.holding #v[0x32, 0x35, 0x20, 0x20] 0 true 0
  (made (refB 0x0A) [0x03, 0x00, 0x00] [0x03, 0x8F, 0x0F])

/-- REF-A, CAID, one digit, after BEGIN from zero ports (P3). -/
def lit1 : State := made (refA 0x11) [0x01, 0x00, 0xFF] [0x01, 0x00, 0xFF]

/-- What a command leaves, seen through `f`; none where it does not go on. -/
def after {α : Type} (i : Instr) (s : State) (f : State → α) : Option α :=
  match exec i s with
  | .next t => some (f t)
  | .fault _ => none
  | .refused _ => none

/-- What a step leaves, seen through `f`; none where it does not go on. -/
def stepped {α : Type} (s : State) (f : State → α) : Option α :=
  match step s with
  | .next t => some (f t)
  | .fault _ => none
  | .refused _ => none

/-- The state with one event to come. -/
def withEvent (e : Event) (s : State) : State := { s with pending := [e] }

/-! ### Well-formed commands -/

theorem test_wellFormed_refuses_len_8 : (Instr.setstr 8 0 0 0 0).wellFormed = false := by decide

theorem test_wellFormed_refuses_int_above : (Instr.setint 2147483648).wellFormed = false := by decide

theorem test_wellFormed_refuses_int_below : (Instr.setint (-2147483649)).wellFormed = false := by decide

theorem test_wellFormed_accepts_the_ends : ∀ i ∈ [Instr.begin, .blank, .setstr 0 0 0 0 0, .setstr 7 0xFF 0 0 0,
    .setint 2147483647, .setint (-2147483648), .setdp true, .setdp false, .advance, .test], i.wellFormed = true := by
  decide

/-! ### Decoding: words written out from the fields of R65 and the map of R72 -/

theorem test_decode_begin :
    decode 0b00000001_00000000_00000000_00000000_00000000_00000000 = .command .begin := by decide

theorem test_decode_blank :
    decode 0b00000010_00000000_00000000_00000000_00000000_00000000 = .command .blank := by decide

/-- LEN = 3, DATA bytes from the most significant: 0x21, 'c', 'b', 'a'. -/
theorem test_decode_setstr :
    decode 0b00000011_00000011_00100001_01100011_01100010_01100001 =
      .command (.setstr 3 0x61 0x62 0x63 0x21) := by decide

/-- DATA = 0xFFFFFFFB, two's complement. -/
theorem test_decode_setint :
    decode 0b00000100_00000000_11111111_11111111_11111111_11111011 = .command (.setint (-5)) := by decide

theorem test_decode_setdp :
    decode 0b00000101_00000001_00000000_00000000_00000000_00000000 = .command (.setdp true) ∧
    decode 0b00000101_00000000_00000000_00000000_00000000_00000000 = .command (.setdp false) := by decide

theorem test_decode_advance :
    decode 0b00000110_00000000_00000000_00000000_00000000_00000000 = .command .advance := by decide

theorem test_decode_test :
    decode 0b00000111_00000000_00000000_00000000_00000000_00000000 = .command .test := by decide

/-- V1, the rows not written out above: LEN above 4 and ignored bytes are legal, and the ends of the integers. -/
theorem test_decode_legal_corners :
    decode 0x030700006261 = .command (.setstr 7 0x61 0x62 0 0) ∧
    decode 0x0302FFFF6968 = .command (.setstr 2 0x68 0x69 0xFF 0xFF) ∧
    decode 0x040080000000 = .command (.setint (-2147483648)) ∧
    decode 0x04007FFFFFFF = .command (.setint 2147483647) := by decide

/-- V1: the words whose opcode is not assigned. -/
theorem test_decode_refused_opcode :
    ([0x000000000000, 0x080000000000, 0xFF0000000000, 0x00FFFFFFFFFF] : List CmdWord).map decode =
      List.replicate 4 (.refuse .refOpcode) := by decide

/-- V1: the words with a reserved bit set. -/
theorem test_decode_refused_field :
    ([0x010000000001, 0x020100000000, 0x030800000000, 0x038400000000, 0x040100000005, 0x050200000000, 0x050000000001,
      0x060100000000, 0x070000000100] : List CmdWord).map decode = List.replicate 9 (.refuse .refField) := by decide

/-- The table's numbering: the word itself, and a refused one. -/
theorem test_decodeTableWord :
    decodeTableWord 48 0x0400FFFFFFFB = some (.setint (-5)) ∧ decodeTableWord 48 0x080000000000 = none := by decide

/-! ### Lookups and configuration checks -/

/-- V2: unused slots, DP over two ports, first match, unknown glyphs. -/
theorem test_lookups :
    (refA 0x04).config.maskForDigit 3 = [0x08, 0, 0] ∧ (refA 0x03).config.maskForDigit 3 = [0, 0, 0] ∧
    (refA 0x03).config.allDigitsMask = [0x07, 0, 0] ∧ (refA 0x04).config.own = [0x0F, 0, 0xFF] ∧
    (refB 0x0A).config.maskForSegment .dp = [0, 0x80, 0x08] ∧ (refB 0x0A).config.own = [0x03, 0x8F, 0x0F] ∧
    [0x38, 0x2D, 0x20, 0x41, 0x2E, 0x00, 0xFF].map (segmentsIn defaultSymtab) =
      [0x7F, 0x40, 0x00, 0x00, 0x00, 0x00, 0x00] ∧
    segmentsIn (defaultSymtab ++ [⟨0x30, 0x01⟩]) 0x30 = 0x3F := by decide

/-- V3: CFG. -/
theorem test_check_cfg :
    [0x04, 0x0C, 0x14, 0x1C, 0x03, 0x11, 0x00, 0x05, 0x24, 0xE4].map (fun cfg => (refA cfg).config.failing) =
      [none, none, none, none, none, none, some .k1, some .k1, some .k2, some .k2] := by decide

/-- V3: the digit masks. -/
theorem test_check_digit_masks :
    ([([0, 0], 0, 0x04), ([0, 0, 0x01], 0, 0x04), ([0, 0, 0], 1, 0x04), ([0x01, 0, 0], 1, 0x04),
        ([0, 0, 0x01], 2, 0x02)] : List (PortMask × Fin 4 × Byte)).map
      (fun r => { refA r.2.2 with digMask := refDigMask.set r.2.1 r.1 }.config.failing) =
      [some .m1, some .m6, some .m4, some .m5, none] := by decide

/-- V3: the segment masks. -/
theorem test_check_segment_masks :
    ([(7, [0, 0, 0]), (1, [0, 0, 0x01])] : List (Fin 8 × PortMask)).map
      (fun r => { refA 0x04 with segMask := refASegMask.set r.1 r.2 }.config.failing) = [some .m2, some .m3] := by decide

/-- V3: the symbol table; an empty table is refused S1. -/
theorem test_check_symbols :
    ([defaultSymtab.filter (fun e => e.glyph != 0x2D), SymEntry.mk 0x20 0x01 :: defaultSymtab,
      defaultSymtab ++ [SymEntry.mk 0x78 0x76], defaultSymtab ++ [SymEntry.mk 0x30 0x01], []] : List (List SymEntry)).map
      (fun t => { refA 0x04 with symtab := some t }.config.failing) =
    [some .s2, some .s3, some .s4, none, some .s1] := by decide

/-! ### One command each -/

/-- E2, V5: BEGIN from zero ports, on the four polarities of REF-A. -/
theorem test_begin_polarities :
    [0x04, 0x0C, 0x14, 0x1C].map (fun cfg =>
      after .begin (made (refA cfg) [0, 0, 0] [0, 0, 0]) (fun t => (t.port, t.dir))) =
    [some ([0x00, 0x00, 0xFF], [0x0F, 0x00, 0xFF]), some ([0x0F, 0x00, 0x00], [0x0F, 0x00, 0xFF]),
     some ([0x0F, 0x00, 0xFF], [0x0F, 0x00, 0xFF]), some ([0x00, 0x00, 0x00], [0x0F, 0x00, 0xFF])] := by decide

/-- V5: the calls of BEGIN on REF-B, common cathode, and where they lead. -/
theorem test_begin_refB :
    after .begin (made (refB 0x0A) [0, 0, 0] [0, 0, 0]) (fun t => (t.port, t.dir, t.trace)) =
      some ([0x03, 0x00, 0x00], [0x03, 0x8F, 0x0F],
        [.dirOut 0 0x03, .dirOut 1 0x8F, .dirOut 2 0x0F, .portSet 0 0x03, .portClear 1 0x8F, .portClear 2 0x0F]) := by
  decide

/-- V5: BLANK keeps the bits of others. -/
theorem test_blank_keeps_others :
    after .blank (made (refA 0x04) [0x5A, 0x33, 0x12] [0, 0, 0]) (fun t => (t.port, t.dir, t.trace)) =
      some ([0x50, 0x33, 0xFF], [0, 0, 0], [.portClear 0 0x0F, .portSet 2 0xFF]) := by decide

/-- P3 line 7: BLANK on one digit with both axes active-low. -/
theorem test_blank_caid :
    after .blank (made (refA 0x11) [0x00, 0x00, 0x00] [0x01, 0x00, 0xFF]) (fun t => t.port) =
      some [0x01, 0x00, 0xFF] := by decide

/-- V6: stale cells stay, LEN is clamped, zero bytes are copied. -/
theorem test_setstr_four_digits :
    ([(2, 0x68, 0x69, 0, 0), (0, 0, 0, 0, 0), (7, 0x61, 0x62, 0, 0)] : List (Nat × Byte × Byte × Byte × Byte)).map
      (fun r => after (.setstr r.1 r.2.1 r.2.2.1 r.2.2.2.1 r.2.2.2.2)
        (State.holding #v[0x31, 0x32, 0x33, 0x34] 0 false 0 litA) (fun t => t.buf)) =
    [some #v[0x68, 0x69, 0x33, 0x34], some #v[0x31, 0x32, 0x33, 0x34], some #v[0x61, 0x62, 0x00, 0x00]] := by decide

/-- V6: two digits take two characters; the unused cells keep their reset value. -/
theorem test_setstr_truncates :
    after (.setstr 4 0x31 0x32 0x33 0x34) (made (refB 0x0A) [0, 0, 0] [0, 0, 0]) (fun t => (t.buf, t.trace)) =
      some (#v[0x31, 0x32, 0x20, 0x20], []) := by decide

/-- V7 on four digits: -12, 12345, the ends of the integers. -/
theorem test_setint_four_digits :
    [-12, 12345, 2147483647, -2147483648].map (fun v => after (.setint v) litA (fun t => t.buf)) =
      [some #v[0x2D, 0x31, 0x32, 0x20], some #v[0x31, 0x32, 0x33, 0x34], some #v[0x32, 0x31, 0x34, 0x37],
       some #v[0x2D, 0x32, 0x31, 0x34]] := by decide

/-- E9 and E10: "1234" and SETINT 5; two digits and SETINT -15. -/
theorem test_setint_stale_and_truncated :
    after (.setint 5) (State.holding #v[0x31, 0x32, 0x33, 0x34] 0 false 0 litA) (fun t => t.buf) =
      some #v[0x35, 0x32, 0x33, 0x34] ∧
    after (.setint (-15)) (made (refB 0x0A) [0, 0, 0] [0, 0, 0]) (fun t => t.buf) = some #v[0x2D, 0x31, 0x20, 0x20] := by
  decide

/-- V8. -/
theorem test_setdp :
    after (.setdp true) litA (fun t => (t.dp, t.trace)) = some (true, []) ∧
    after (.setdp false) (State.holding litA.buf 0 true 0 litA) (fun t => t.dp) = some false := by decide

/-- V9: "1234" on slot 3 with DP, and on slot 0, where DP stays dark. -/
theorem test_advance_refA :
    after .advance (State.holding #v[0x31, 0x32, 0x33, 0x34] 3 true 0 litA) (fun t => (t.port, t.cur)) =
      some ([0x08, 0x00, 0x19], 0) ∧
    after .advance (State.holding #v[0x31, 0x32, 0x33, 0x34] 0 true 0 litA) (fun t => (t.port, t.trace)) =
      some ([0x01, 0x00, 0xF9], [.portClear 0 0x0F, .portSet 2 0xFF, .portClear 2 0x02, .portClear 2 0x04,
        .portSet 0 0x01]) := by decide

/-- V9: the full trace of the REF-B slot 1 row, DP over two ports; and ADVANCE before BEGIN, which keeps DIR. -/
theorem test_advance_refB_and_raw :
    after .advance (State.holding litB.buf 1 true 0 { litB with port := [0x02, 0x0B, 0x05] })
      (fun t => (t.port, t.trace)) =
      some ([0x01, 0x8D, 0x0E], [.portSet 0 0x03, .portClear 1 0x8F, .portClear 2 0x0F, .portSet 1 0x01, .portSet 1 0x04,
        .portSet 1 0x08, .portSet 2 0x02, .portSet 2 0x04, .portSet 1 0x80, .portSet 2 0x08, .portClear 0 0x02]) ∧
    after .advance (State.holding #v[0x38, 0x20, 0x20, 0x20] 0 false 0 rawA) (fun t => (t.port, t.dir)) =
      some ([0xA1, 0x3C, 0x80], [0xF0, 0xFF, 0x00]) := by decide

/-- V10: the wrap of both cursors, and entry 3 on slot 3 with DP on, which TEST ignores. -/
theorem test_test_refA :
    after .test (State.holding litA.buf 3 false 19 litA) (fun t => (t.port, t.cur, t.symcur)) =
      some ([0x08, 0x00, 0xFF], 0, 0) ∧
    after .test (State.holding litA.buf 3 true 3 litA) (fun t => (t.port, t.cur, t.symcur)) =
      some ([0x08, 0x00, 0xB0], 0, 4) := by decide

/-- V10: one digit, CAID; and the parameter TEST_ADVANCES_CUR at false. -/
theorem test_test_one_digit_and_parameter :
    after .test lit1 (fun t => (t.port, t.cur, t.symcur)) = some ([0x00, 0x00, 0xC0], 0, 1) ∧
    after .test (made { refA 0x04 with testAdvancesCur := false } [0x00, 0x00, 0xFF] [0x0F, 0x00, 0xFF])
      (fun t => (t.port, t.cur, t.symcur)) = some ([0x01, 0x00, 0xC0], 0, 1) := by decide

/-! ### One step each -/

/-- P4 line 4: a refused word changes nothing but REFUSED and its record, and the list goes on. -/
theorem test_step_refused_word :
    stepped (withEvent (.command 0x060100000000) litA) (fun t => t) =
      some { litA with refused := true, refusals := [(0x060100000000, .refField)], pos := 1 } := by decide

/-- V4: CONSTRUCT makes no call and leaves the ports. -/
theorem test_step_construct :
    stepped (withEvent (.construct (refA 0x04))
      { State.holding #v[0x31, 0x32, 0x33, 0x34] 2 true 7 rawA with refused := true }) (fun t => t) = some rawA := by
  decide

/-- A word in the low half of the table's numbering runs as the first instruction after reset. -/
theorem test_step_from_reset :
    stepped (State.reset.withFetchWord 48 0x0400FFFFFFFB) (fun t => (t.buf, t.pos, t.pending)) =
      some (#v[0x2D, 0x35, 0x20, 0x20], 1, []) := by decide

/-- R64: other subsystems write the bits they may, and only those of the mask. -/
theorem test_step_external :
    stepped (withEvent (.external .out 0 0xC0 0x4F) rawA) (fun t => (t.port, t.dir)) =
      some ([0x65, 0x3C, 0x00], [0xF0, 0xFF, 0x00]) ∧
    stepped (withEvent (.external .dir 1 0x0F 0x00) rawA) (fun t => (t.port, t.dir)) =
      some ([0xA5, 0x3C, 0x00], [0xF0, 0xF0, 0x00]) := by decide

/-- R29: a pin whose DIR bit is 0 has no level; a slot is lit only where its pins drive. -/
theorem test_pinLevel :
    rawA.pinLevel 0 0 = none ∧ rawA.pinLevel 0 5 = some true ∧ litA.pinLevel 2 0 = some true ∧
    after .advance litA (fun t => (t.digitOn 0, t.digitOn 1, t.segmentOn .a)) = some (true, false, false) := by decide

/-! ### The assembler (R76, R77) -/

theorem test_assemble_program :
    assemble ["begin ; first".toList, "".toList] = .error .badMnemonic ∧
    assemble ["SHOW \"\\x41\\\"\" ; text".toList, "".toList, "REFRESH 2".toList, "SETINT 0xFFFFFFFB".toList] =
      .ok [0x030420202020, 0x030200002241, 0x060000000000, 0x060000000000, 0x0400FFFFFFFB] := by decide

/-- Leading zeros, a choice of the model (log 15). -/
theorem test_assemble_leading_zeros :
    ["SETINT 007", "SETDP 01", "REFRESH 02", "SETSTR \"a\", 007"].map (fun l => assembleLine l.toList) =
      [.ok [.setint 7], .ok [.setdp true], .ok [.advance, .advance], .ok [.setstr 7 0x61 0 0 0]] := by decide

theorem test_assemble_errors :
    ["SETSTR \"12345\"", "SETSTR \"1\", 8", "SETINT 2147483648", "SETINT -2147483649", "SETDP 2", "REFRESH 0", "BEGIN 1",
      "SETSTR \"a"].map (fun l => assembleLine l.toList) =
      [.error .textTooLong, .error .lenRange, .error .intRange, .error .intRange, .error .dpRange, .error .refreshRange,
       .error .badOperands, .error .openText] := by decide

/-! ### Witnesses: for each obligation with hypotheses, a state and operands that meet them all -/

theorem litA_inv : litA.Inv := by constructor <;> decide

theorem litB_inv : litB.Inv := by constructor <;> decide

/-- The one-digit state, after a refused word and with a call in its trace. -/
def lit1Refused : State :=
  { lit1 with refused := true, refusals := [(0x060100000000, .refField)], trace := [.portSet 0 0x01] }

theorem lit1Refused_inv : lit1Refused.Inv := by constructor <;> decide

/-- The state whose parameter TEST_ADVANCES_CUR is false. -/
def litStay : State := made { refA 0x04 with testAdvancesCur := false } [0x00, 0x00, 0xFF] [0x0F, 0x00, 0xFF]

theorem litStay_inv : litStay.Inv := by constructor <;> decide

theorem litA_one_active : litA.AtMostOneActive := by unfold State.AtMostOneActive; decide

/-- One slot is active here. -/
theorem litB_one_active : { litB with port := [0x02, 0x06, 0x00] }.AtMostOneActive ∧
    { litB with port := [0x02, 0x06, 0x00] }.slotActive 0 = true := by unfold State.AtMostOneActive; decide

theorem witness_WordIsItsRowsCommand :
    decode 0x0400FFFFFFFB = .command (.setint (-5)) ∧
    (∃ r ∈ opcodeRows, r.accepts 0x0400FFFFFFFB = true) ∧ (∃ r ∈ opcodeRows, r.accepts 0x050100000000 = true) := by decide

theorem witness_DecodeOfEncode :
    (Instr.setstr 7 1 2 3 4).wellFormed = true ∧ (Instr.setint (-2147483648)).wellFormed = true := by decide

theorem witness_EncodeOfDecode : decode 0x03070A0B0C0D = .command (.setstr 7 0x0D 0x0C 0x0B 0x0A) := by decide

/-- Slot 2 is used and slot 3 is not, on three digits. -/
theorem witness_DigitAndAggregateMasks :
    (2 : Fin 4).val < (refA 0x03).config.digits ∧ (refA 0x03).config.digits ≤ (3 : Fin 4).val := by decide

/-- Both sides of the equivalence occur. -/
theorem witness_AdmittedConfigurations :
    (refB 0x0A).config.admitted = true ∧ (refA 0x05).config.admitted = false := by decide

/-- Entry 9 is the first with '9'; no entry has 'A'. -/
theorem witness_SegmentsForIsTheFirstMatch :
    (refA 0x04).config.symtab[9]? = some ⟨0x39, 0x6F⟩ ∧
    (∀ j : Fin 9, ∀ e, (refA 0x04).config.symtab[j.val]? = some e → e.glyph ≠ 0x39) ∧
    (∀ e ∈ (refA 0x04).config.symtab, e.glyph ≠ 0x41) := by
  refine ⟨by decide, ?_, by decide⟩
  intro j e h
  have : ∀ j : Fin 9, (((refA 0x04).config.symtab[j.val]?).map SymEntry.glyph) ≠ some 0x39 := by decide
  intro hg
  exact this j (by rw [h, Option.map_some, hg])

theorem witness_DefaultSymbolTable :
    (refA 0x04).symtab = none ∧ (0x41 : Byte) ∉ defaultSymtab.map (fun e => e.glyph) ∧
    (refA 0x04).config.symtab = defaultSymtab := by decide

/-- The last port of three, and another one. -/
theorem witness_PrimitiveCalls :
    rawA.readPort 2 = some 0x00 ∧ rawA.readDir 2 = some 0x00 ∧ (0 : Nat) ≠ 2 := by decide

theorem witness_DriveGroupWritesTheMask :
    rawA.config.nports ≤ rawA.port.length ∧ 2 < rawA.config.nports ∧ rawA.config.nports ≤ 3 := by decide

/-- Clause by clause: port 3 does not exist; bit 3 of port 0 is owned; bits 7..4 of port 0 are not. -/
theorem witness_ExternalWrites :
    rawA.dir.length = rawA.port.length ∧
    (withEvent (.external .out 3 0x01 0x01) rawA).pending = [.external .out 3 0x01 0x01] ∧ rawA.port.length ≤ 3 ∧
    0 < rawA.port.length ∧ 0x08#8 &&& rawA.config.own.byte 0 ≠ 0 ∧ 0xF0#8 &&& rawA.config.own.byte 0 = 0 := by decide

theorem witness_ExternalWritesAreUnobserved :
    (withEvent (.external .dir 0 0xF0 0x00) rawA).pending = [.external .dir 0 0xF0 0x00] ∧
    ∃ t, step (withEvent (.external .dir 0 0xF0 0x00) rawA) = .next t := ⟨by decide, _, rfl⟩

theorem witness_BeginResult : litA.Inv ∧ litB.Inv := ⟨litA_inv, litB_inv⟩

theorem witness_BlankResult : litA.Inv ∧ litB.Inv := ⟨litA_inv, litB_inv⟩

theorem witness_BeginIsIdempotent : litA.Inv ∧ ∃ s1, exec .begin litA = .next s1 := ⟨litA_inv, _, rfl⟩

theorem witness_BlankIsIdempotent : ∃ s1, exec .blank rawA = .next s1 := ⟨_, rfl⟩

theorem witness_NothingIsLitAfterBlank : litA.Inv ∧ litA.config.allDigitsMask.hasPin 0 3 = true ∧
    litA.config.allSegmentsMask.hasPin 2 7 = true := ⟨litA_inv, by decide⟩

theorem witness_BlankClosesTheBeginWindow : litB.Inv ∧ ∃ s1, exec .blank litB = .next s1 := ⟨litB_inv, _, rfl⟩

/-- Both sides of zero, at the ends of each range. -/
theorem witness_DecimalText :
    (0 : Int) < 1 ∧ (0 : Int) < 2147483647 ∧ (-1 : Int) < 0 ∧ (dec (-2147483648)).length = 11 ∧
    (dec (-1000000000)).length = 11 ∧ (dec (-999999999)).length = 10 ∧ (dec 2147483647).length = 10 := by decide

theorem witness_ShowPadsTheText : ([] : List Byte).length ≤ 4 ∧ [0x31#8, 0x32, 0x33, 0x34].length ≤ 4 := by decide

/-- The flag adds DP on slot 1 of two, and not on slot 0. -/
theorem witness_AdvanceResult : litA.Inv ∧ litB.Inv ∧ { litB with cur := 1 }.dpFires = true ∧ litB.dpFires = false :=
  ⟨litA_inv, litB_inv, by decide⟩

theorem witness_TestResult : litA.Inv ∧ litA.config.testAdvancesCur = true ∧ litStay.Inv ∧
    litStay.config.testAdvancesCur = false := ⟨litA_inv, by decide, litStay_inv, by decide⟩

/-- The last entry of the table. -/
theorem witness_TestTrace : (State.holding litA.buf 3 true 19 litA).config.symtab[19]? = some ⟨0x20, 0x00⟩ ∧
    (State.holding litA.buf 3 true 19 litA).symcur.val = 19 := by decide

theorem witness_AdvanceNeverGhosts : litA.Inv ∧ litA.AtMostOneActive := ⟨litA_inv, litA_one_active⟩

theorem witness_TestNeverGhosts : litA.Inv ∧ litA.AtMostOneActive := ⟨litA_inv, litA_one_active⟩

theorem witness_AtMostOneSlotStaysActive : litA.Inv ∧ litA.AtMostOneActive ∧ (Instr.begin = .begin) :=
  ⟨litA_inv, litA_one_active, rfl⟩

theorem witness_FullAdvanceCycle : litB.Inv ∧ (1 : Fin 4).val < litB.config.digits ∧ 1 < litB.config.digits ∧
    (∃ u, execAll (List.replicate 1 .advance) litB = .next u) := ⟨litB_inv, by decide, by decide, _, rfl⟩

theorem witness_FullTestCycle : litA.Inv ∧ lit1.config.symcount = 20 := ⟨litA_inv, by decide⟩

/-- DP on over two pins; slot 0 is not the last and slot 1 is. -/
theorem witness_DecimalPointOncePerCycle :
    litB.Inv ∧ litB.dp = true ∧ (litB.cur.val + 0) % litB.config.digits ≠ litB.config.digits - 1 ∧
    (litB.cur.val + 1) % litB.config.digits = litB.config.digits - 1 ∧
    (litB.config.maskForSegment .dp).hasPin 1 7 = true ∧ (litB.config.maskForSegment .dp).hasPin 2 3 = true ∧
    ∀ g, inSegs (litB.config.segmentsFor g) .dp = false := by
  refine ⟨litB_inv, by decide, by decide, by decide, by decide, by decide, fun g => ?_⟩
  have h : ∀ t : List SymEntry, (∀ e ∈ t, inSegs e.segs .dp = false) → inSegs (segmentsIn t g) .dp = false := by
    intro t
    induction t with
    | nil => intro _; simp [segmentsIn, inSegs]
    | cons e t ih =>
      intro he
      simp only [segmentsIn]
      split
      · exact he e (by simp)
      · exact ih (fun e' h' => he e' (by simp [h']))
  exact h litB.config.symtab (by decide)

theorem witness_CursorCountsTicks :
    (refA 0x03).config.admitted = true ∧ (refA 0x03).config.testAdvancesCur = true := by decide

theorem witness_StepRunsTheDecodedCommand :
    (withEvent (.command 0x060000000000) litA).pending = [.command 0x060000000000] ∧
    decode 0x060000000000 = .command .advance := by decide

theorem witness_EveryCommandMovesTheListByOne :
    (withEvent (.command 0x060100000000) { litA with refused := true }).pending = [.command 0x060100000000] ∧
    decode 0x060100000000 = .refuse .refField := by decide

theorem witness_IdleHostKeepsTheState : litA.pending = [] := rfl

theorem witness_RunIsTheCommandsInOrder :
    ∀ i ∈ [Instr.begin, .setstr 7 0x61 0x62 0 0, .setint (-5), .advance], i.wellFormed = true := by decide

/-- A run that is safe, and one that is not. -/
theorem witness_SafeRunsAreDecodable :
    Decodable [0x010000000000] ∧ litA.refused = false ∧ ¬ Decodable [0x060100000000] := by
  refine ⟨?_, rfl, ?_⟩
  · intro w hw
    rw [List.mem_singleton.1 hw]
    exact ⟨.begin, by decide⟩
  · intro h
    obtain ⟨i, hi⟩ := h 0x060100000000 (by simp)
    have : decode 0x060100000000 = .refuse .refField := by decide
    rw [this] at hi
    cases hi

/-- Two states that differ where the DMC owns nothing. -/
theorem witness_ObservationIsSelfContained :
    { litA with port := [0xF0, 0x3C, 0xFF], pos := 9 }.Inv ∧ litA.Inv ∧
    { litA with port := [0xF0, 0x3C, 0xFF], pos := 9 }.config = litA.config ∧
    { litA with port := [0xF0, 0x3C, 0xFF], pos := 9 }.observe = litA.observe ∧
    { litA with port := [0xF0, 0x3C, 0xFF], pos := 9 } ≠ litA :=
  ⟨by constructor <;> decide, litA_inv, rfl, by decide, by decide⟩

theorem witness_FirstConstruct : (refB 0x02).config.admitted = true ∧ 2 < (refB 0x02).nports := by decide

/-- REF-A's wiring on two ports: the segments on port 1. -/
def refTwoPorts : ConstructInput :=
  { cfg := 0x04, nports := 2
    segMask := #v[[0, 0x01], [0, 0x02], [0, 0x04], [0, 0x08], [0, 0x10], [0, 0x20], [0, 0x40], [0, 0x80]]
    digMask := #v[[0x01, 0], [0x02, 0], [0x04, 0], [0x08, 0]] }

/-- A smaller new NPORTS: port 2 has registers and lies beyond it. -/
theorem witness_LaterConstruct_fewer_ports :
    (withEvent (.construct refTwoPorts) rawA).pending = [.construct refTwoPorts] ∧
    refTwoPorts.config.admitted = true ∧ rawA.dir.length = rawA.port.length ∧
    refTwoPorts.nports ≤ 2 ∧ 2 < rawA.port.length := by decide

theorem witness_LaterConstruct :
    (withEvent (.construct (refB 0x1A)) rawA).pending = [.construct (refB 0x1A)] ∧
    (refB 0x1A).config.admitted = true ∧ rawA.dir.length = rawA.port.length ∧ 2 < rawA.port.length := by decide

theorem witness_FailingConfigurationIsRefused :
    (withEvent (.construct (refA 0x25)) rawA).pending = [.construct (refA 0x25)] ∧
    (refA 0x25).config.admitted = false := by decide

theorem witness_TraceBounds : litA.Inv ∧ litA.config = (refA 0x04).config ∧
    ∃ t, construct (refA 0x04) rawA = .next t := ⟨litA_inv, rfl, by
  have h : (refA 0x04).config.failing = none := by decide
  exact ⟨_, by unfold construct; rw [h]⟩⟩

/-- A step of each kind that goes on from a state of the invariant. -/
theorem witness_EveryStepKeepsTheInvariant : litA.Inv ∧
    (∃ t, step (withEvent (.command 0x060000000000) litA) = .next t) ∧
    (∃ t, step (withEvent (.command 0x060100000000) litA) = .next t) ∧
    (∃ t, step (withEvent (.external .out 1 0xFF 0x00) litA) = .next t) := ⟨litA_inv, ⟨_, rfl⟩, ⟨_, rfl⟩, ⟨_, rfl⟩⟩

end Sys2Proof.Tests
end

section
/-!
The invariant of the state (10_state.md): CONSTRUCT establishes it, at the first start and later, and every event that goes
on keeps it. One lemma per operation; a step is then one of the five cases of `step_cases`.
-/

namespace Sys2Proof.Machine

/-! ### CONSTRUCT establishes the invariant -/

/-- Every cell of the buffer is a space at reset (10_state.md R36). -/
theorem spaces_cell (i : Fin 4) : (#v[0x20, 0x20, 0x20, 0x20] : Vector Byte 4)[i] = 0x20 := by revert i; decide

theorem extendPorts_length (n : Nat) (init : Nat → Byte) (l : List Byte) :
    (extendPorts n init l).length = max l.length n := by
  simp only [extendPorts, List.length_append, List.length_map, List.length_range']
  omega

theorem fresh_inv {c : Config} (h : c.admitted = true) (portInit dirInit : Nat → Byte) :
    (State.fresh c portInit dirInit).Inv where
  admitted := h
  cur_lt := Config.digits_pos h
  symcur_lt := Config.symcount_pos h
  ports := by simp
  dirs := by simp
  unused_cells i _ := spaces_cell i
  refused_iff := by simp
  refusals_true := by simp
  trace_owned := by simp

/-- A later instance takes its reset values; a port register that exists stays, so PORT and DIR keep equal lengths. -/
theorem newInstance_inv {c : Config} (h : c.admitted = true) {s : State} (hs : s.dir.length = s.port.length) :
    (s.newInstance c).Inv where
  admitted := h
  cur_lt := Config.digits_pos h
  symcur_lt := Config.symcount_pos h
  ports := by simp [State.newInstance, extendPorts_length]
  dirs := by simp [State.newInstance, extendPorts_length, hs]
  unused_cells i _ := spaces_cell i
  refused_iff := by simp [State.newInstance]
  refusals_true := by simp [State.newInstance]
  trace_owned := by simp [State.newInstance]

@[simp] theorem constructInput_config_nports (c : ConstructInput) : c.config.nports = c.nports := rfl

/-- The first CONSTRUCT with an admitted configuration makes the fresh state (70_reset_and_hazards.md R173). -/
theorem boot_construct {c : ConstructInput} (h : c.config.admitted = true) (portInit dirInit : Nat → Byte)
    (rest : List Event) : boot portInit dirInit (.construct c :: rest) =
      .next { State.fresh c.config portInit dirInit with pending := rest } := by
  simp [boot, c.config.admitted_iff_failing.1 h]

/-! ### The cursors stay in range (10_state.md R37) -/

theorem nextCur_lt {s : State} (h : s.config.admitted = true) : s.nextCur.val < s.config.digits := by
  rw [nextCur_val h]
  exact Nat.mod_lt _ (Config.digits_pos h)

theorem nextSymcur_lt {s : State} (h : s.config.admitted = true) : s.nextSymcur.val < s.config.symcount := by
  rw [nextSymcur_val h]
  exact Nat.mod_lt _ (Config.symcount_pos h)

namespace State.Inv

variable {s : State} (h : s.Inv)
include h

theorem testCur_lt : s.testCur.val < s.config.digits := by
  unfold State.testCur
  split
  · exact nextCur_lt h.admitted
  · exact h.cur_lt

/-! ### Each operation keeps the invariant -/

/-- The invariant does not read the host's list. -/
theorem takeCommand (rest : List Event) : (s.takeCommand rest).Inv := { h with }

theorem takeOther (rest : List Event) : (s.takeOther rest).Inv := { h with }

theorem setDp (v : Bool) : (s.setDp v).Inv := { h with }

theorem setCur {v : Fin 4} (hv : v.val < s.config.digits) : (s.setCur v).Inv := { h with cur_lt := hv }

theorem setSymcur {v : Fin 256} (hv : v.val < s.config.symcount) : (s.setSymcur v).Inv := { h with symcur_lt := hv }

/-- A text is clamped to DIGITS cells, so it reaches no unused one (10_state.md R22). -/
theorem writeText (len : Nat) (t : List Byte) : (s.writeText len t).Inv :=
  { h with
    unused_cells := fun i hi => by
      have hout : ¬ i.val < min len s.config.digits := by
        have : s.config.digits ≤ i.val := hi
        omega
      calc (s.writeText len t).buf[i]
        _ = s.buf[i] := by simpa [hout] using copyText_cell (min len s.config.digits) t s.buf i.val i.isLt
        _ = 0x20 := h.unused_cells i hi }

/-- REFUSED and its record change together (10_state.md R35). -/
theorem refuseWord {w : CmdWord} {r : RefuseReason} (hd : decode w = .refuse r) : (s.refuseWord w r).Inv :=
  { h with
    refused_iff := by simp
    refusals_true := by
      intro x hx
      rcases List.mem_append.1 hx with hold | hnew
      · exact h.refusals_true x hold
      · obtain rfl := List.mem_singleton.1 hnew
        exact hd }

theorem externalWrite (r : PortReg) (p : Nat) (mask value : Byte) : (s.externalWrite r p mask value).Inv := by
  cases r <;> exact { h with ports := by simpa using h.ports, dirs := by simpa using h.dirs }

/-- An owned call changes one register of one port and lengthens the trace by itself (20_memory.md R49, R55). -/
theorem perform {k : PrimCall} (hk : k.owned s.config = true) : (s.perform k).Inv := by
  have htrace : ∀ c ∈ s.trace ++ [k], c.owned s.config = true := by
    intro c hc
    rcases List.mem_append.1 hc with hold | hnew
    · exact h.trace_owned c hold
    · obtain rfl := List.mem_singleton.1 hnew
      exact hk
  cases k <;>
    exact { h with ports := by simpa using h.ports, dirs := by simpa using h.dirs, trace_owned := htrace }

theorem performAll {cs : List PrimCall} (hcs : ∀ k ∈ cs, k.owned s.config = true) : (s.performAll cs).Inv := by
  induction cs generalizing s with
  | nil => exact h
  | cons k cs ih =>
    refine ih (h.perform (hcs k List.mem_cons_self)) fun c hc => ?_
    rw [State.perform_config]
    exact hcs c (List.mem_cons_of_mem k hc)

/-- The registers a command leaves, computed from the state `s` before its calls, on the state `t` after them. -/
theorem finish (i : Instr) {t : State} (ht : t.Inv) (hc : t.config = s.config) : (finish i s t).Inv := by
  cases i with
  | begin => exact ht
  | blank => exact ht
  | setstr len c0 c1 c2 c3 => exact ht.writeText len [c0, c1, c2, c3]
  | setint v => exact ht.writeText (dec v).length (dec v)
  | setdp en => exact ht.setDp en
  | advance => exact ht.setCur (by rw [hc]; exact nextCur_lt h.admitted)
  | test =>
    have hcur : (t.setCur s.testCur).Inv := ht.setCur (by rw [hc]; exact h.testCur_lt)
    exact hcur.setSymcur (by rw [State.setCur_config, hc]; exact nextSymcur_lt h.admitted)

theorem exec {i : Instr} {t : State} (he : exec i s = .next t) : t.Inv := by
  rw [exec_cases he]
  have hcalls : (s.performAll (commandCalls i s)).Inv := h.performAll fun _ hk => commandCalls_owned hk
  exact h.finish i hcalls (State.performAll_config s _)

end State.Inv

/-! ### The obligations -/

/-- Settles O50, by the kind of event a step takes (`step_cases`). -/
theorem everyStepKeepsTheInvariant : Obligations.EveryStepKeepsTheInvariant := by
  intro s t h hstep
  rcases step_cases hstep with ⟨-, rfl⟩ | ⟨w, rest, i, -, -, hexec⟩ | ⟨w, rest, r, -, hdec, rfl⟩ |
    ⟨c, rest, -, hchecks, rfl⟩ | ⟨r, p, mask, value, rest, -, -, -, rfl⟩
  · exact h
  · exact (h.takeCommand rest).exec hexec
  · exact (h.takeCommand rest).refuseWord hdec
  · exact newInstance_inv (c.config.admitted_iff_failing.2 hchecks) h.dirs
  · exact (h.takeOther rest).externalWrite r p mask value

/-- Settles O45: the first CONSTRUCT makes the fresh state, whose fields are the reset values and the draws. -/
theorem firstConstruct : Obligations.FirstConstruct := by
  refine ⟨fun portInit dirInit c rest h => ⟨_, boot_construct h portInit dirInit rest, ?_⟩, fun _ _ _ _ => rfl⟩
  have hports : ∀ p, p < c.nports → (State.fresh c.config portInit dirInit).readPort p = some (portInit p) ∧
      (State.fresh c.config portInit dirInit).readDir p = some (dirInit p) := by
    intro p hp
    simp [State.readPort, State.readDir, List.getElem?_range hp]
  exact ⟨spaces_cell, rfl, rfl, rfl, rfl, by simp, by simp, hports, rfl, rfl, rfl, rfl, rfl⟩

/-- Settles O49: the configuration of log 1 is admitted, and a fresh state meets the invariant whatever it draws. -/
theorem resetMeetsTheInvariant : Obligations.ResetMeetsTheInvariant := by
  have hadmitted : resetInput.config.admitted = true := by decide
  exact fresh_inv hadmitted Config.portInit Config.dirInit

end Sys2Proof.Machine
end

section
/-!
The ports (20_memory.md): each primitive on the registers it reads and writes, the calls of a command inside OWN, the
writes of other subsystems, and the observation (60_exceptions.md R166) pin by pin. `State.SameView` is equality of
observations written out; every command keeps it, because it is kept by every call and the calls are computed from it.
-/

namespace Sys2Proof.Machine

/-! ### Primitives on a whole register -/

@[simp] theorem readPort_perform (s : State) (c : PrimCall) (p : Nat) :
    (s.perform c).readPort p = (s.readPort p).map (c.onPort p) := s.perform_port c p

@[simp] theorem readDir_perform (s : State) (c : PrimCall) (p : Nat) :
    (s.perform c).readDir p = (s.readDir p).map (c.onDir p) := s.perform_dir c p

/-- The port a call names. -/
def PrimCall.port : PrimCall → Nat
  | .portSet p _ => p
  | .portClear p _ => p
  | .dirOut p _ => p

theorem PrimCall.onPort_of_ne {k : PrimCall} {q : Nat} (hq : q ≠ k.port) : k.onPort q = id := by
  funext v
  cases k with
  | portSet p m => exact if_neg hq.symm
  | portClear p m => exact if_neg hq.symm
  | dirOut p m => rfl

theorem PrimCall.onDir_of_ne {k : PrimCall} {q : Nat} (hq : q ≠ k.port) : k.onDir q = id := by
  funext v
  cases k with
  | portSet p m => rfl
  | portClear p m => rfl
  | dirOut p m => exact if_neg hq.symm

/-- A call leaves both registers of every port it does not name. -/
theorem perform_other_port (s : State) {k : PrimCall} {q : Nat} (hq : q ≠ k.port) :
    (s.perform k).readPort q = s.readPort q ∧ (s.perform k).readDir q = s.readDir q := by
  simp [PrimCall.onPort_of_ne hq, PrimCall.onDir_of_ne hq]

/-- Settles O11, by what each primitive does to one register (`onPort`, `onDir`). -/
theorem primitiveCalls : Obligations.PrimitiveCalls := by
  intro s p m o d ho hd
  refine ⟨?set, ?clear, ?out, ?others⟩
  case set => simp [ho, hd, PrimCall.onPort, PrimCall.onDir]
  case clear => simp [ho, hd, PrimCall.onPort, PrimCall.onDir]
  case out => simp [ho, hd, PrimCall.onPort, PrimCall.onDir]
  case others =>
    intro c hc q hq
    have hport : c.port = p := by
      simp only [List.mem_cons, List.not_mem_nil, or_false] at hc
      rcases hc with rfl | rfl | rfl <;> rfl
    exact perform_other_port s (hport ▸ hq)

/-! ### The calls of a command -/

/-- An owned call, written out: an existing port and a non-zero mask inside OWN (20_memory.md R49, R55). -/
theorem exists_mask_of_owned {c : Config} {k : PrimCall} (hk : k.owned c = true) :
    ∃ p m, (k = .portSet p m ∨ k = .portClear p m ∨ k = .dirOut p m) ∧
      p < c.nports ∧ m ≠ 0 ∧ m &&& ~~~(c.own.byte p) = 0 := by
  cases k with
  | portSet p m => exact ⟨p, m, by simp, by simpa [PrimCall.owned, and_assoc] using hk⟩
  | portClear p m => exact ⟨p, m, by simp, by simpa [PrimCall.owned, and_assoc] using hk⟩
  | dirOut p m => exact ⟨p, m, by simp, by simpa [PrimCall.owned, and_assoc] using hk⟩

/-- Settles O13: a command is its calls and then its registers (`exec_eq`), and each of its calls is an owned one. -/
theorem commandsStayInsideOwn : Obligations.CommandsStayInsideOwn := by
  intro i s
  have howned : ∀ k ∈ commandCalls i s, k.owned s.config = true := fun _ hk => commandCalls_owned hk
  exact ⟨_, commandCalls i s, exec_eq i s, by simp, fun k hk => exists_mask_of_owned (howned k hk),
    sameOutsideOwn_of_calls howned (finish_port i s _) (finish_dir i s _)⟩

/-! ### Writes of other subsystems -/

section External
variable (s : State) (r : PortReg) {p : Nat} {mask : Byte} (value : Byte)

theorem externalEvent_noSuchPort (hp : s.port.length ≤ p) :
    externalEvent r p mask value s = .fault (.noSuchPort p) := if_pos hp

theorem externalEvent_ownedWrite (hp : p < s.port.length) (ho : mask &&& s.config.own.byte p ≠ 0) :
    externalEvent r p mask value s = .refused (.ownedWrite p mask) := by
  rw [externalEvent, if_neg (Nat.not_le.2 hp), if_pos ho]

theorem externalEvent_next (hp : p < s.port.length) (ho : mask &&& s.config.own.byte p = 0) :
    externalEvent r p mask value s = .next (s.externalWrite r p mask value) := by
  rw [externalEvent, if_neg (Nat.not_le.2 hp), if_neg (not_not.2 ho)]

end External

/-- Settles O14, by the three answers of `externalEvent`. -/
theorem externalWrites : Obligations.ExternalWrites := by
  intro s r p mask value rest hpending hlen
  rw [step_cons hpending]
  refine ⟨externalEvent_noSuchPort (s.takeOther rest) r value, externalEvent_ownedWrite (s.takeOther rest) r value,
    fun hp ho => ⟨_, externalEvent_next (s.takeOther rest) r value hp ho, ?port, ?dir, ?frame, ?lengths⟩⟩
  case port => exact (s.takeOther rest).externalWrite_portBit r p mask value hp
  case dir => exact (s.takeOther rest).externalWrite_dirBit r p mask value (hlen ▸ hp)
  case frame => cases r <;> rfl
  case lengths => simp

/-! ### The observation, pin by pin -/

/-- Two bytes agree under a mask exactly when they agree on each bit of the mask. -/
theorem and_eq_and_iff (v v' m : Byte) :
    v &&& m = v' &&& m ↔ ∀ b, m.getLsbD b = true → v.getLsbD b = v'.getLsbD b := by
  constructor
  · intro h b hm
    simpa [hm] using congrArg (fun x => x.getLsbD b) h
  · intro h
    apply BitVec.eq_of_getLsbD_eq
    intro b _
    cases hm : m.getLsbD b
    · simp [hm]
    · simp [hm, h b hm]

/-- Two states of one configuration agree on all a claim may read (60_exceptions.md R166): the registers of the DMC, the
owned pins of PORT and DIR, and the trace. -/
structure State.SameView (s t : State) : Prop where
  config : s.config = t.config
  buf : s.buf = t.buf
  cur : s.cur = t.cur
  dp : s.dp = t.dp
  symcur : s.symcur = t.symcur
  port : ∀ p < t.config.nports, ∀ b, t.config.own.hasPin p b = true → s.portBit p b = t.portBit p b
  dir : ∀ p < t.config.nports, ∀ b, t.config.own.hasPin p b = true → s.dirBit p b = t.dirBit p b
  trace : s.trace = t.trace

/-- The owned bits of the ports' registers agree exactly when they agree pin by pin. -/
theorem ownedBytes_eq_iff (n : Nat) (f g : Nat → Byte) (m : PortMask) :
    (List.range n).map (fun p => f p &&& m.byte p) = (List.range n).map (fun p => g p &&& m.byte p) ↔
      ∀ p < n, ∀ b, m.hasPin p b = true → (f p).getLsbD b = (g p).getLsbD b := by
  simp only [List.map_inj_left, List.mem_range, and_eq_and_iff, PortMask.hasPin]

/-- Under one configuration, equal observations are the same view. -/
theorem observe_eq_iff {s t : State} (hc : s.config = t.config) : s.observe = t.observe ↔ s.SameView t := by
  have hports := ownedBytes_eq_iff t.config.nports (fun p => (s.readPort p).getD 0) (fun p => (t.readPort p).getD 0)
    t.config.own
  have hdirs := ownedBytes_eq_iff t.config.nports (fun p => (s.readDir p).getD 0) (fun p => (t.readDir p).getD 0)
    t.config.own
  simp only [State.observe, Observation.mk.injEq, hc]
  rw [hports, hdirs]
  constructor
  · rintro ⟨hbuf, hcur, hdp, hsymcur, hport, hdir, htrace⟩
    exact ⟨hc, hbuf, hcur, hdp, hsymcur, hport, hdir, htrace⟩
  · rintro ⟨-, hbuf, hcur, hdp, hsymcur, hport, hdir, htrace⟩
    exact ⟨hbuf, hcur, hdp, hsymcur, hport, hdir, htrace⟩

/-! ### Writes of other subsystems are not observed -/

section Unmasked
variable (s : State) (r : PortReg) (p : Nat) {mask : Byte} (value : Byte) {q b : Nat}

/-- A write of another subsystem leaves a pin outside its mask, whether or not the port it names exists. -/
theorem externalWrite_portBit_unmasked (h : q = p → mask.getLsbD b = false) :
    (s.externalWrite r p mask value).portBit q b = s.portBit q b := by
  by_cases hp : p < s.port.length
  · rw [s.externalWrite_portBit r p mask value hp, if_neg]
    rintro ⟨-, hq, hm⟩
    simp [h hq] at hm
  · cases r
    · exact State.portBit_congr (List.modify_eq_self (Nat.not_lt.1 hp)) q b
    · rfl

theorem externalWrite_dirBit_unmasked (h : q = p → mask.getLsbD b = false) :
    (s.externalWrite r p mask value).dirBit q b = s.dirBit q b := by
  by_cases hp : p < s.dir.length
  · rw [s.externalWrite_dirBit r p mask value hp, if_neg]
    rintro ⟨-, hq, hm⟩
    simp [h hq] at hm
  · cases r
    · rfl
    · exact State.dirBit_congr (List.modify_eq_self (Nat.not_lt.1 hp)) q b

end Unmasked

/-- A mask that meets no owned bit of its port leaves every owned pin out. -/
theorem unmasked_of_own {c : Config} {p q b : Nat} {mask : Byte} (ho : mask &&& c.own.byte p = 0)
    (hpin : c.own.hasPin q b = true) (hq : q = p) : mask.getLsbD b = false := by
  subst hq
  have hown : (c.own.byte q).getLsbD b = true := hpin
  simpa [hown] using congrArg (fun x => x.getLsbD b) ho

/-- A write clear of OWN is not observed (20_memory.md R64). -/
theorem observe_externalWrite (s : State) (r : PortReg) {p : Nat} {mask : Byte} (value : Byte)
    (ho : mask &&& s.config.own.byte p = 0) : (s.externalWrite r p mask value).observe = s.observe := by
  refine (observe_eq_iff (s.externalWrite_config r p mask value)).2 ?_
  constructor
  case port => exact fun q _ b hpin => externalWrite_portBit_unmasked s r p value (unmasked_of_own ho hpin)
  case dir => exact fun q _ b hpin => externalWrite_dirBit_unmasked s r p value (unmasked_of_own ho hpin)
  all_goals simp

/-- Settles O15: a write that goes on is clear of OWN (`externalEvent_cases`), and the host's list is not observed. -/
theorem externalWritesAreUnobserved : Obligations.ExternalWritesAreUnobserved := by
  intro s t r p mask value rest hpending hstep
  rw [step_cons hpending] at hstep
  obtain ⟨-, ho, rfl⟩ := externalEvent_cases (s := s.takeOther rest) hstep
  exact observe_externalWrite (s.takeOther rest) r value ho

/-! ### Commands keep the view -/

/-- What a call leaves in a bit of a register depends on that bit alone (20_memory.md R53). -/
theorem PrimCall.onPort_getLsbD_congr (k : PrimCall) (p : Nat) {v v' : Byte} {b : Nat}
    (h : v.getLsbD b = v'.getLsbD b) : (k.onPort p v).getLsbD b = (k.onPort p v').getLsbD b := by
  cases k with
  | portSet q m => simp only [PrimCall.onPort]; split <;> simp [h]
  | portClear q m => simp only [PrimCall.onPort]; split <;> simp [h]
  | dirOut q m => exact h

theorem PrimCall.onDir_getLsbD_congr (k : PrimCall) (p : Nat) {v v' : Byte} {b : Nat}
    (h : v.getLsbD b = v'.getLsbD b) : (k.onDir p v).getLsbD b = (k.onDir p v').getLsbD b := by
  cases k with
  | portSet q m => exact h
  | portClear q m => exact h
  | dirOut q m => simp only [PrimCall.onDir]; split <;> simp [h]

/-- Calls in order keep the agreement of two registers on a bit that each single call keeps. -/
theorem foldl_getLsbD_congr {f : Byte → PrimCall → Byte} {b : Nat}
    (hf : ∀ k {v v' : Byte}, v.getLsbD b = v'.getLsbD b → (f v k).getLsbD b = (f v' k).getLsbD b)
    (cs : List PrimCall) {v v' : Byte} (h : v.getLsbD b = v'.getLsbD b) :
    (cs.foldl f v).getLsbD b = (cs.foldl f v').getLsbD b := by
  induction cs generalizing v v' with
  | nil => exact h
  | cons k cs ih => exact ih (hf k h)

theorem performAll_dirBit (s : State) (cs : List PrimCall) {p : Nat} (hl : p < s.dir.length) (b : Nat) :
    (s.performAll cs).dirBit p b = (cs.foldl (fun v c => c.onDir p v) s.dir[p]).getLsbD b := by
  simp [State.dirBit, State.readDir, State.performAll_dir, List.getElem?_eq_getElem hl]

namespace State.SameView

variable {s t : State} (h : s.SameView t)
include h

theorem nextCur : s.nextCur = t.nextCur := by simp only [State.nextCur, h.cur, h.config]

theorem nextSymcur : s.nextSymcur = t.nextSymcur := by simp only [State.nextSymcur, h.symcur, h.config]

theorem testCur : s.testCur = t.testCur := by simp only [State.testCur, h.nextCur, h.cur, h.config]

theorem dpFires : s.dpFires = t.dpFires := by simp only [State.dpFires, State.atLastSlot, h.cur, h.dp, h.config]

/-- The calls of a command are computed from the view. -/
theorem commandCalls (i : Instr) : commandCalls i s = commandCalls i t := by
  cases i with
  | begin => simp only [Machine.commandCalls, beginCalls, h.config]
  | blank => simp only [Machine.commandCalls, h.config]
  | setstr len c0 c1 c2 c3 => rfl
  | setint v => rfl
  | setdp en => rfl
  | advance => simp only [Machine.commandCalls, advanceCalls, h.config, h.buf, h.cur, h.dpFires]
  | test => simp only [Machine.commandCalls, testCalls, h.config, h.cur, h.symcur]

/-- Both states need the registers of every port, which the invariant gives them: a call to a missing one is lost. -/
theorem performAll (hs : s.Inv) (ht : t.Inv) (cs : List PrimCall) : (s.performAll cs).SameView (t.performAll cs) := by
  have hn : s.config.nports = t.config.nports := congrArg Config.nports h.config
  constructor
  case port =>
    intro p hp b hpin
    rw [performAll_config] at hp hpin
    have hls : p < s.port.length := by have := hs.ports; omega
    have hlt : p < t.port.length := by have := ht.ports; omega
    rw [performAll_portBit s cs hls, performAll_portBit t cs hlt]
    exact foldl_getLsbD_congr (fun k => k.onPort_getLsbD_congr p) cs (by simpa [getLsbD_port] using h.port p hp b hpin)
  case dir =>
    intro p hp b hpin
    rw [performAll_config] at hp hpin
    have hls : p < s.dir.length := by have := hs.ports; have := hs.dirs; omega
    have hlt : p < t.dir.length := by have := ht.ports; have := ht.dirs; omega
    rw [performAll_dirBit s cs hls, performAll_dirBit t cs hlt]
    exact foldl_getLsbD_congr (fun k => k.onDir_getLsbD_congr p) cs (by simpa [getLsbD_dir] using h.dir p hp b hpin)
  all_goals simp [h.config, h.buf, h.cur, h.dp, h.symcur, h.trace]

theorem writeText (len : Nat) (x : List Byte) : (s.writeText len x).SameView (t.writeText len x) :=
  { h with buf := by simp [h.config, h.buf] }

theorem setDp (v : Bool) : (s.setDp v).SameView (t.setDp v) := { h with dp := rfl }

theorem setCur {v v' : Fin 4} (hv : v = v') : (s.setCur v).SameView (t.setCur v') := { h with cur := hv }

theorem setSymcur {v v' : Fin 256} (hv : v = v') : (s.setSymcur v).SameView (t.setSymcur v') :=
  { h with symcur := hv }

/-- The registers a command leaves are computed from the view before its calls. -/
theorem finish (i : Instr) {s' t' : State} (h' : s'.SameView t') : (finish i s s').SameView (finish i t t') := by
  cases i with
  | begin => exact h'
  | blank => exact h'
  | setstr len c0 c1 c2 c3 => exact h'.writeText len [c0, c1, c2, c3]
  | setint v => exact h'.writeText (dec v).length (dec v)
  | setdp en => exact h'.setDp en
  | advance => exact h'.setCur h.nextCur
  | test => exact (h'.setCur h.testCur).setSymcur h.nextSymcur

theorem exec {i : Instr} (hs : s.Inv) (ht : t.Inv) {s' t' : State} (hs' : exec i s = .next s')
    (ht' : exec i t = .next t') : s'.SameView t' := by
  rw [exec_cases hs', exec_cases ht', ← h.commandCalls i]
  exact h.finish i (h.performAll hs ht _)

/-- Commands in order keep the view, one command after the other. -/
theorem execAll (is : List Instr) (hs : s.Inv) (ht : t.Inv) :
    ∃ s' t', execAll is s = .next s' ∧ execAll is t = .next t' ∧ s'.SameView t' := by
  induction is generalizing s t with
  | nil => exact ⟨s, t, rfl, rfl, h⟩
  | cons i is ih =>
    rw [execAll_cons, execAll_cons]
    exact ih (h.exec hs ht (exec_eq i s) (exec_eq i t)) (hs.exec (exec_eq i s)) (ht.exec (exec_eq i t))

end State.SameView

/-- Settles O43: equal observations are the same view, and commands keep it. -/
theorem observationIsSelfContained : Obligations.ObservationIsSelfContained := by
  intro is s s' hs hs' hconfig hobserve
  obtain ⟨t, t', ht, ht', hview⟩ := ((observe_eq_iff hconfig).1 hobserve).execAll is hs hs'
  exact ⟨t, t', ht, ht', (observe_eq_iff hview.config).2 hview⟩

end Sys2Proof.Machine
end

section
/-!
The encoding (30_encoding.md). Three facts carry it: the decoder undoes the encoder on well-formed commands, a word that
decodes is its command's encoding, and a word that matches a row of the opcode map is an encoding of that row.
-/

namespace Sys2Proof

/-! ### The places of LEN and EN in ARG (R70, R71) -/

/-- A reserved part that is 0, read as a mask and as the decoder reads it: `ARG[7:3]` of SETSTR (R70). -/
theorem and_lenReserved_iff : ∀ arg : BitVec 8, arg &&& 0xF8 = 0 ↔ arg.extractLsb' 3 5 = 0#5 := by decide

/-- The same, for `ARG[7:1]` of SETDP (R71). -/
theorem and_enReserved_iff : ∀ arg : BitVec 8, arg &&& 0xFE = 0 ↔ arg.extractLsb' 1 7 = 0#7 := by decide

theorem lenReserved_ofNat (len : Nat) : (BitVec.ofNat 8 (len % 8)).extractLsb' 3 5 = 0#5 := by
  apply BitVec.eq_of_toNat_eq
  simp only [BitVec.extractLsb'_toNat, BitVec.toNat_ofNat, Nat.shiftRight_eq_div_pow]
  omega

theorem lenOfArg_ofNat {len : Nat} (h : len ≤ 7) : lenOfArg (BitVec.ofNat 8 (len % 8)) = len := by
  simp only [lenOfArg, BitVec.extractLsb'_toNat, BitVec.toNat_ofNat, Nat.shiftRight_zero]
  omega

theorem lenOfArg_le (arg : BitVec 8) : lenOfArg arg ≤ 7 := Nat.le_of_lt_succ (arg.extractLsb' 0 3).isLt

theorem ofNat_lenOfArg : ∀ arg : BitVec 8, arg.extractLsb' 3 5 = 0#5 → BitVec.ofNat 8 (lenOfArg arg % 8) = arg := by
  decide

theorem enBit_of_reserved : ∀ arg : BitVec 8, arg.extractLsb' 1 7 = 0#7 →
    (if arg.getLsbD 0 then 1 else 0) = arg := by decide

/-! ### Encoding what the decoder reads from the fields -/

theorem mkWord_of_fields {w : CmdWord} {op arg : BitVec 8} {d : BitVec 32} (ho : opField w = op) (ha : argField w = arg)
    (hd : dataField w = d) : mkWord op arg d = w := by
  rw [← ho, ← ha, ← hd, mkWord_fields]

/-- A word without operands: the fields of BEGIN, BLANK, ADVANCE and TEST, as the decoder tests them. -/
theorem mkWord_of_no_operands {w : CmdWord} {op : BitVec 8} (ho : opField w = op)
    (h : ¬(argField w ≠ 0#8 ∨ dataField w ≠ 0#32)) : mkWord op 0 0 = w := by
  obtain ⟨ha, hd⟩ : argField w = 0 ∧ dataField w = 0 := by simpa using h
  exact mkWord_of_fields ho ha hd

theorem encode_setstr_fields {arg : BitVec 8} (h : arg.extractLsb' 3 5 = 0#5) (d : BitVec 32) :
    encode (.setstr (lenOfArg arg) (dataChar d 0) (dataChar d 1) (dataChar d 2) (dataChar d 3)) =
      mkWord 0x03 arg d := by
  rw [encode, ofNat_lenOfArg arg h, data_chars]

theorem encode_setint_toInt (d : BitVec 32) : encode (.setint d.toInt) = mkWord 0x04 0 d := by
  rw [encode, BitVec.ofInt_toInt]

theorem encode_setdp_bit {arg : BitVec 8} (h : arg.extractLsb' 1 7 = 0#7) :
    encode (.setdp (arg.getLsbD 0)) = mkWord 0x05 arg 0 := by
  rw [encode, enBit_of_reserved arg h]

theorem wellFormed_setint_iff (v : Int) :
    (Instr.setint v).wellFormed = true ↔ -2147483648 ≤ v ∧ v ≤ 2147483647 := by
  simp [Instr.wellFormed]

theorem wellFormed_setint_toInt (d : BitVec 32) : (Instr.setint d.toInt).wellFormed = true := by
  have hlow := d.le_toInt
  have hhigh := d.toInt_lt
  rw [wellFormed_setint_iff]
  omega

theorem wellFormed_setstr_lenOfArg (arg : BitVec 8) (c0 c1 c2 c3 : Byte) :
    (Instr.setstr (lenOfArg arg) c0 c1 c2 c3).wellFormed = true := decide_eq_true (lenOfArg_le arg)

/-- A 32-bit integer survives its two's-complement form (R69). -/
theorem toInt_ofInt_of_wellFormed {v : Int} (h : (Instr.setint v).wellFormed = true) :
    (BitVec.ofInt 32 v).toInt = v := by
  obtain ⟨hlow, hhigh⟩ := (wellFormed_setint_iff v).1 h
  exact BitVec.toInt_ofInt_eq_self (by decide) (by omega) (by omega)

/-! ### Decoding and encoding -/

/-- Settles O3, command by command: the fields of the encoded word are the operands. -/
theorem decodeOfEncode : Obligations.DecodeOfEncode := by
  intro i hi
  cases i with
  | begin => decide
  | blank => decide
  | setstr len c0 c1 c2 c3 =>
    obtain ⟨h0, h1, h2, h3⟩ := dataChar_append c0 c1 c2 c3
    have hlen : len ≤ 7 := of_decide_eq_true hi
    simp [encode, decode, lenReserved_ofNat, lenOfArg_ofNat hlen, h0, h1, h2, h3]
  | setint v => simp [encode, decode, toInt_ofInt_of_wellFormed hi]
  | setdp en => cases en <;> decide
  | advance => decide
  | test => decide

/-- Settles O4, along the seven branches of the decoder that answer a command. -/
theorem encodeOfDecode : Obligations.EncodeOfDecode := by
  intro w i h
  simp only [decode] at h
  split_ifs at h with h1 hr h2 hr h3 hr h4 hr h5 hr h6 hr h7 hr <;> cases h
  · exact ⟨rfl, mkWord_of_no_operands h1 hr⟩
  · exact ⟨rfl, mkWord_of_no_operands h2 hr⟩
  · refine ⟨wellFormed_setstr_lenOfArg _ _ _ _ _, ?_⟩
    rw [encode_setstr_fields (not_not.1 hr)]
    exact mkWord_of_fields h3 rfl rfl
  · refine ⟨wellFormed_setint_toInt _, ?_⟩
    rw [encode_setint_toInt]
    exact mkWord_of_fields h4 (not_not.1 hr) rfl
  · obtain ⟨harg, hdata⟩ := not_or.1 hr
    refine ⟨rfl, ?_⟩
    rw [encode_setdp_bit (not_not.1 harg)]
    exact mkWord_of_fields h5 rfl (not_not.1 hdata)
  · exact ⟨rfl, mkWord_of_no_operands h6 hr⟩
  · exact ⟨rfl, mkWord_of_no_operands h7 hr⟩

/-! ### The rows of the opcode map -/

theorem encode_accepts {i : Instr} (h : i.wellFormed = true) : (opcodeRow i).accepts (encode i) = true := by
  cases i with
  | begin => exact Laws.EncodedRow.begin h
  | blank => exact Laws.EncodedRow.blank h
  | setstr len c0 c1 c2 c3 => exact Laws.EncodedRow.setstr len c0 c1 c2 c3 h
  | setint v => exact Laws.EncodedRow.setint v h
  | setdp en => exact Laws.EncodedRow.setdp en h
  | advance => exact Laws.EncodedRow.advance h
  | test => exact Laws.EncodedRow.test h

theorem row_accepts_of_decode {w : CmdWord} {i : Instr} (h : decode w = .command i) :
    (opcodeRow i).accepts w = true := by
  obtain ⟨hwf, rfl⟩ := encodeOfDecode w i h
  exact encode_accepts hwf

theorem opcodeRow_mem (i : Instr) : opcodeRow i ∈ opcodeRows := by
  cases i <;> simp only [opcodeRow] <;> decide

theorem and_byteOnes (b : BitVec 8) : b &&& 0xFF = b := BitVec.and_allOnes

theorem and_dataOnes (d : BitVec 32) : d &&& 0xFFFFFFFF = d := BitVec.and_allOnes

/-- A row, given by its OP and its reserved bits of ARG and DATA, accepts the words with this OP and with 0 there. -/
theorem fields_of_accepts {r : OpcodeRow} {w : CmdWord} (h : r.accepts w = true) {op arg : BitVec 8} {data : BitVec 32}
    (hpat : r.pat = mkWord op 0 0) (hmask : r.mask = mkWord 0xFF arg data) :
    opField w = op ∧ argField w &&& arg = 0 ∧ dataField w &&& data = 0 := by
  have hw : mkWord (opField w) (argField w) (dataField w) &&& mkWord 0xFF arg data = mkWord op 0 0 := by
    rw [mkWord_fields, ← hpat, ← hmask]
    exact beq_iff_eq.1 h
  rw [mkWord_and] at hw
  obtain ⟨hop, harg, hdata⟩ := mkWord_inj hw
  exact ⟨by rwa [and_byteOnes] at hop, harg, hdata⟩

/-- A row whose mask fixes every bit has one word. -/
theorem eq_pat_of_accepts {r : OpcodeRow} {w : CmdWord} (h : r.accepts w = true) (hmask : r.mask = BitVec.allOnes 48) :
    r.pat = w := by
  have hw : w &&& r.mask = r.pat := beq_iff_eq.1 h
  rw [← hw, hmask, BitVec.and_allOnes]

/-- A word that matches a command's row is an encoding of that row: every reserved bit of it is 0. -/
theorem exists_encode_of_accepts {i : Instr} {w : CmdWord} (h : (opcodeRow i).accepts w = true) :
    ∃ j, j.wellFormed = true ∧ opcodeRow j = opcodeRow i ∧ encode j = w := by
  cases i with
  | begin => exact ⟨.begin, rfl, rfl, eq_pat_of_accepts h (by decide)⟩
  | blank => exact ⟨.blank, rfl, rfl, eq_pat_of_accepts h (by decide)⟩
  | setstr len c0 c1 c2 c3 =>
    obtain ⟨hop, harg, -⟩ := fields_of_accepts h (op := 0x03) (arg := 0xF8) (data := 0) rfl rfl
    refine ⟨_, wellFormed_setstr_lenOfArg (argField w) _ _ _ _, rfl,
      (encode_setstr_fields ((and_lenReserved_iff _).1 harg) (dataField w)).trans ?_⟩
    exact mkWord_of_fields hop rfl rfl
  | setint v =>
    obtain ⟨hop, harg, -⟩ := fields_of_accepts h (op := 0x04) (arg := 0xFF) (data := 0) rfl rfl
    rw [and_byteOnes] at harg
    refine ⟨_, wellFormed_setint_toInt (dataField w), rfl, (encode_setint_toInt _).trans ?_⟩
    exact mkWord_of_fields hop harg rfl
  | setdp en =>
    obtain ⟨hop, harg, hdata⟩ := fields_of_accepts h (op := 0x05) (arg := 0xFE) (data := 0xFFFFFFFF) rfl rfl
    rw [and_dataOnes] at hdata
    refine ⟨.setdp ((argField w).getLsbD 0), rfl, rfl,
      (encode_setdp_bit ((and_enReserved_iff _).1 harg)).trans ?_⟩
    exact mkWord_of_fields hop rfl hdata
  | advance => exact ⟨.advance, rfl, rfl, eq_pat_of_accepts h (by decide)⟩
  | test => exact ⟨.test, rfl, rfl, eq_pat_of_accepts h (by decide)⟩

theorem eq_opcodeRow_of_mem {r : OpcodeRow} (h : r ∈ opcodeRows) : ∃ i, opcodeRow i = r := by
  simp only [opcodeRows, List.mem_cons, List.not_mem_nil, or_false] at h
  rcases h with rfl | rfl | rfl | rfl | rfl | rfl | rfl <;> exact ⟨_, rfl⟩

theorem decode_of_row_accepts {r : OpcodeRow} (hr : r ∈ opcodeRows) {w : CmdWord} (h : r.accepts w = true) :
    ∃ i, decode w = .command i ∧ opcodeRow i = r := by
  obtain ⟨i, rfl⟩ := eq_opcodeRow_of_mem hr
  obtain ⟨j, hwf, hrow, rfl⟩ := exists_encode_of_accepts h
  exact ⟨j, decodeOfEncode j hwf, hrow⟩

/-- Settles O1: the rows are disjoint because a word decodes to one command, which has one row. -/
theorem wordIsItsRowsCommand : Obligations.WordIsItsRowsCommand := by
  refine ⟨?rows, fun w i => row_accepts_of_decode, fun w r hr => decode_of_row_accepts hr, ?disjoint⟩
  case rows => exact ⟨rfl, rfl, fun _ _ _ _ _ => rfl, fun _ => rfl, fun _ => rfl, rfl, rfl⟩
  case disjoint =>
    intro w r hr r' hr' h h'
    obtain ⟨i, hi, rfl⟩ := decode_of_row_accepts hr h
    obtain ⟨j, hj, rfl⟩ := decode_of_row_accepts hr' h'
    rw [Decoded.command.inj (hi.symm.trans hj)]

/-! ### Refused words -/

/-- The seven assigned opcodes, and all the others (R72, R74). -/
theorem opcode_reserved_iff : ∀ op : BitVec 8,
    (op ∉ [0x01#8, 0x02, 0x03, 0x04, 0x05, 0x06, 0x07]) ↔ op.toNat = 0 ∨ 8 ≤ op.toNat := by decide

/-- Only the last branch of the decoder answers REF_OPCODE: no assigned opcode was met. -/
theorem decode_refOpcode_iff (w : CmdWord) :
    decode w = .refuse .refOpcode ↔ opField w ∉ [0x01#8, 0x02, 0x03, 0x04, 0x05, 0x06, 0x07] := by
  simp only [decode]
  split_ifs <;> simp [*]

/-- A word decodes exactly when it matches a row of the opcode map. -/
theorem exists_command_iff (w : CmdWord) :
    (∃ i, decode w = .command i) ↔ ∃ r ∈ opcodeRows, r.accepts w = true := by
  constructor
  · rintro ⟨i, h⟩
    exact ⟨_, opcodeRow_mem i, row_accepts_of_decode h⟩
  · rintro ⟨r, hr, h⟩
    obtain ⟨i, hi, -⟩ := decode_of_row_accepts hr h
    exact ⟨i, hi⟩

theorem decode_refField_iff (w : CmdWord) :
    decode w = .refuse .refField ↔ decode w ≠ .refuse .refOpcode ∧ ¬∃ i, decode w = .command i := by
  rcases decode w with i | (_ | _) <;> simp

/-- Settles O2: REF_OPCODE is the decoder's last branch, and REF_FIELD is left for the words that match no row. -/
theorem malformedWordsAreRefusedByReason : Obligations.MalformedWordsAreRefusedByReason := by
  have hopcode : ∀ w, decode w = .refuse .refOpcode ↔ (opField w).toNat = 0 ∨ 8 ≤ (opField w).toNat :=
    fun w => (decode_refOpcode_iff w).trans (opcode_reserved_iff _)
  refine ⟨hopcode, fun w => ?_⟩
  have hassigned : ¬((opField w).toNat = 0 ∨ 8 ≤ (opField w).toNat) ↔
      1 ≤ (opField w).toNat ∧ (opField w).toNat ≤ 7 := by omega
  rw [decode_refField_iff, exists_command_iff, Ne, hopcode, hassigned]
  simp

/-- Settles O5, line by line and word by word. -/
theorem sampleWordsOfTheSpec : Obligations.SampleWordsOfTheSpec := by
  refine ⟨?lines, ?refused⟩
  case lines => decide
  case refused => decide

end Sys2Proof
end

section
/-!
The commands of the host's list (30_encoding.md R66, R77, R81): what a step on a command word does, and SHOW.
-/

namespace Sys2Proof.Machine

/-! ### A step on a command word -/

section Word
variable {s : State} {w : CmdWord} {rest : List Event} (h : s.pending = .command w :: rest)
include h

/-- A word that decodes runs its command, on the state that has taken the word from the list. -/
theorem step_command {i : Instr} (hd : decode w = .command i) : step s = exec i (s.takeCommand rest) := by
  rw [step_cons h, deliver, runWord, hd]

/-- A word that does not decode is refused there (60_exceptions.md R152). -/
theorem step_refuse {r : RefuseReason} (hd : decode w = .refuse r) :
    step s = .next ((s.takeCommand rest).refuseWord w r) := by
  rw [step_cons h, deliver, runWord, hd]

/-- Decoded or refused, the word is taken from the list, and REFUSED is not cleared (30_encoding.md R81). -/
theorem step_word : ∃ t, step s = .next t ∧ t.pending = rest ∧ t.pos = s.pos + 1 ∧
    (s.refused = true → t.refused = true) := by
  cases hd : decode w with
  | command i => exact ⟨_, (step_command h hd).trans (exec_eq i _), by simp, by simp, by simp⟩
  | refuse r => exact ⟨_, step_refuse h hd, by simp, by simp, by simp⟩

end Word

/-- Settles O38: taking the word is the statement's update of the list and the position. -/
theorem stepRunsTheDecodedCommand : Obligations.StepRunsTheDecodedCommand :=
  fun _ _ _ _ h hd => step_command h hd

/-- Settles O39, by the two answers of the decoder. -/
theorem everyCommandMovesTheListByOne : Obligations.EveryCommandMovesTheListByOne :=
  ⟨fun _ _ _ h => step_word h, fun _ _ _ _ h hd => step_refuse h hd⟩

/-! ### SHOW -/

/-- SETSTR of a text fills the cells below LEN and DIGITS (42_content.md R120). -/
theorem writeText_cell (s : State) (len : Nat) (t : List Byte) (i : Fin 4) :
    (s.writeText len t).buf[i] =
      if i.val < len ∧ i.val < s.config.digits then t.getD i.val s.buf[i] else s.buf[i] :=
  (copyText_cell (min len s.config.digits) t s.buf i.val i.isLt).trans (if_congr lt_min_iff rfl rfl)

/-- The four characters SETSTR carries: the bytes of the text, and 0 where it has none (30_encoding.md R76). -/
def dataText (text : List Byte) : List Byte := [text.getD 0 0, text.getD 1 0, text.getD 2 0, text.getD 3 0]

theorem exec_setstrOf (text : List Byte) (len : Nat) (s : State) :
    exec (setstrOf text len) s = .next (s.writeText len (dataText text)) := rfl

theorem dataText_getD (text : List Byte) (i : Fin 4) (x : Byte) : (dataText text).getD i.val x = text.getD i.val 0 := by
  match i with
  | 0 => rfl
  | 1 => rfl
  | 2 => rfl
  | 3 => rfl

/-- CLEAR writes a space in every used cell (30_encoding.md R77). -/
theorem clear_cell (s : State) (i : Fin 4) :
    (s.writeText 4 (dataText [0x20, 0x20, 0x20, 0x20])).buf[i] =
      if i.val < s.config.digits then 0x20 else s.buf[i] := by
  have hspace : ([0x20, 0x20, 0x20, 0x20] : List Byte).getD i.val 0 = 0x20 := by revert i; decide
  rw [writeText_cell, dataText_getD, hspace]
  simp only [i.isLt, true_and]

/-- SHOW is CLEAR and then SETSTR of the text with its length (30_encoding.md R77). -/
theorem execAll_showText (text : List Byte) (s : State) : execAll (expandPseudo (.showText text)) s =
    .next ((s.writeText 4 (dataText [0x20, 0x20, 0x20, 0x20])).writeText text.length (dataText text)) := by
  simp only [expandPseudo, execAll, exec_setstrOf]

/-- Settles O27: below the length the text overwrites the spaces of CLEAR, and beyond it they stay. -/
theorem showPadsTheText : Obligations.ShowPadsTheText := by
  intro s text _
  refine ⟨_, execAll_showText text s, fun i => ?cells, rfl⟩
  case cells =>
    rw [writeText_cell, dataText_getD, clear_cell, State.writeText_config]
    by_cases hused : i.val < s.config.digits
    · by_cases htext : i.val < text.length
      · simp [hused, htext]
      · simp [hused, htext]
    · simp [hused]

end Sys2Proof.Machine
end

section
/-!
The lookups (40_lookup.md) and the drive of one mask: the masks byte by byte and pin by pin, the first match of the symbol
table, each check of CONSTRUCT in terms of CFG, of pins and of table entries, and the calls of a drive.
-/

namespace Sys2Proof

/-! ### Segments and their codes (R85) -/

/-- A statement about every segment, by the codes: a segment's code indexes SEGMASK. -/
theorem SegmentId.forall_code {P : Fin 8 → Prop} : (∀ id : SegmentId, P id.code) ↔ ∀ k, P k := by
  constructor
  · intro h k
    obtain ⟨id, rfl⟩ := exists_code k
    exact h id
  · exact fun h id => h id.code

theorem SegmentId.ne_iff_code_ne {i j : SegmentId} : i ≠ j ↔ i.code ≠ j.code :=
  not_congr ⟨congrArg code, code_inj⟩

/-! ### The symbol table (R93) -/

/-- The scan of the table, by the library's search for the first match. -/
theorem segmentsIn_eq_find? (t : List SymEntry) (g : Byte) :
    segmentsIn t g = ((t.find? (fun e => e.glyph = g)).map SymEntry.segs).getD 0x00 := by
  induction t with
  | nil => rfl
  | cons e t ih => by_cases h : e.glyph = g <;> simp [segmentsIn, h, ih]

theorem segmentsIn_of_first_match {t : List SymEntry} {g : Byte} {k : Nat} {e : SymEntry} (he : t[k]? = some e)
    (hg : e.glyph = g) (hfirst : ∀ j e', j < k → t[j]? = some e' → e'.glyph ≠ g) : segmentsIn t g = e.segs := by
  obtain ⟨hk, hek⟩ := List.getElem?_eq_some_iff.1 he
  have hfind : t.find? (fun e => e.glyph = g) = some e := by
    refine List.find?_eq_some_iff_getElem.2 ⟨decide_eq_true hg, k, hk, hek, fun j hj => ?_⟩
    simpa using hfirst j _ hj (List.getElem?_eq_getElem (hj.trans hk))
  rw [segmentsIn_eq_find?, hfind]
  rfl

theorem segmentsIn_of_no_match {t : List SymEntry} {g : Byte} (h : ∀ e ∈ t, e.glyph ≠ g) : segmentsIn t g = 0x00 := by
  have hfind : t.find? (fun e => e.glyph = g) = none := by simpa using h
  rw [segmentsIn_eq_find?, hfind]
  rfl

theorem hasGlyph_iff (t : List SymEntry) (g : Byte) : hasGlyph t g = true ↔ ∃ e ∈ t, e.glyph = g := by
  simp [hasGlyph]

/-- The glyphs of S2: '0' to '9', 'a' to 'f', '-' and ' ' (R96). -/
theorem mem_requiredGlyphs_iff : ∀ g : Byte, g ∈ requiredGlyphs ↔
    (0x30 ≤ g.toNat ∧ g.toNat ≤ 0x39) ∨ (0x61 ≤ g.toNat ∧ g.toNat ≤ 0x66) ∨ g = 0x2D ∨ g = 0x20 := by decide

namespace Config

variable (c : Config)

/-! ### CFG (10_state.md R30) -/

theorem digits_eq_mod : c.digits = c.cfg.toNat % 8 := by
  simp [digits, BitVec.extractLsb'_toNat]

/-- Bits 7:5 of CFG are 0 exactly when it is below 32. -/
theorem cfgReserved_iff : ∀ cfg : Byte, cfg.extractLsb' 5 3 = 0#3 ↔ cfg.toNat < 32 := by decide

/-! ### Masks (R88, R89) -/

theorem maskForDigit_used {s : Fin 4} (h : s.val < c.digits) : c.maskForDigit s = c.digMask[s] := if_pos h

/-- The pins of a slot: those of its table entry, where the slot is used (R88). -/
theorem maskForDigit_hasPin_iff (s : Fin 4) (p b : Nat) :
    (c.maskForDigit s).hasPin p b = true ↔ s.val < c.digits ∧ (c.digMask[s]).hasPin p b = true := by
  by_cases h : s.val < c.digits
  · simp only [c.maskForDigit_used h, h, true_and]
  · simp [c.maskForDigit_unused (Nat.not_lt.1 h), h]

theorem allSegmentsMask_byte (p : Nat) :
    c.allSegmentsMask.byte p = c.segMask[0].byte p ||| c.segMask[1].byte p ||| c.segMask[2].byte p |||
      c.segMask[3].byte p ||| c.segMask[4].byte p ||| c.segMask[5].byte p ||| c.segMask[6].byte p |||
      c.segMask[7].byte p := by
  simp [allSegmentsMask, SegmentId.all, maskForSegment, SegmentId.code]

theorem allDigitsMask_byte (p : Nat) :
    c.allDigitsMask.byte p = (c.maskForDigit 0).byte p ||| (c.maskForDigit 1).byte p ||| (c.maskForDigit 2).byte p |||
      (c.maskForDigit 3).byte p := by
  simp [allDigitsMask, allSlots]

/-! ### Each check of CONSTRUCT (R90, R96, 70_reset_and_hazards.md R171) -/

theorem holds_k1_iff : ConfigCheck.k1.holds c = true ↔ 1 ≤ c.cfg.toNat % 8 ∧ c.cfg.toNat % 8 ≤ 4 := by
  simp [ConfigCheck.holds, digits_eq_mod]

theorem holds_k2_iff : ConfigCheck.k2.holds c = true ↔ c.cfg.toNat < 32 := by
  rw [← cfgReserved_iff]
  exact beq_iff_eq

theorem holds_m1_iff : ConfigCheck.m1.holds c = true ↔
    1 ≤ c.nports ∧ (∀ k : Fin 8, (c.segMask[k]).length = c.nports) ∧ ∀ k : Fin 4, (c.digMask[k]).length = c.nports := by
  rw [← SegmentId.forall_code]
  simp [ConfigCheck.holds, maskForSegment, and_assoc]

theorem holds_m2_iff : ConfigCheck.m2.holds c = true ↔ ∀ k : Fin 8, ∃ p b, (c.segMask[k]).hasPin p b = true := by
  rw [← SegmentId.forall_code]
  simp [ConfigCheck.holds, maskForSegment, PortMask.isZero_eq_false_iff]

theorem holds_m3_iff : ConfigCheck.m3.holds c = true ↔
    ∀ k l : Fin 8, k ≠ l → ∀ p b, ¬((c.segMask[k]).hasPin p b = true ∧ (c.segMask[l]).hasPin p b = true) := by
  simp only [← SegmentId.forall_code, ← SegmentId.ne_iff_code_ne, ← PortMask.disjoint_iff_pins]
  simp [ConfigCheck.holds, maskForSegment, or_iff_not_imp_left]

theorem holds_m4_iff : ConfigCheck.m4.holds c = true ↔
    ∀ k : Fin 4, k.val < c.cfg.toNat % 8 → ∃ p b, (c.digMask[k]).hasPin p b = true := by
  simp only [← PortMask.isZero_eq_false_iff, ← digits_eq_mod]
  simp [ConfigCheck.holds, or_iff_not_imp_left]

theorem holds_m5_iff : ConfigCheck.m5.holds c = true ↔
    ∀ k l : Fin 4, k ≠ l → k.val < c.cfg.toNat % 8 → l.val < c.cfg.toNat % 8 →
      ∀ p b, ¬((c.digMask[k]).hasPin p b = true ∧ (c.digMask[l]).hasPin p b = true) := by
  simp only [← PortMask.disjoint_iff_pins, ← digits_eq_mod]
  simp [ConfigCheck.holds, or_iff_not_imp_left]

/-- The aggregate masks share no pin exactly when no segment shares one with a used slot. -/
theorem holds_m6_iff : ConfigCheck.m6.holds c = true ↔
    ∀ (k : Fin 8) (l : Fin 4), l.val < c.cfg.toNat % 8 →
      ∀ p b, ¬((c.segMask[k]).hasPin p b = true ∧ (c.digMask[l]).hasPin p b = true) := by
  rw [← SegmentId.forall_code, ← digits_eq_mod]
  simp only [ConfigCheck.holds, PortMask.disjoint_iff_pins, allSegmentsMask_hasPin, allDigitsMask_hasPin,
    maskForDigit_hasPin_iff]
  constructor
  · intro h id s hs p b hpins
    exact h p b ⟨⟨id, hpins.1⟩, s, hs, hpins.2⟩
  · rintro h p b ⟨⟨id, hid⟩, s, hs, hdig⟩
    exact h id s hs p b ⟨hid, hdig⟩

theorem holds_s1_iff : ConfigCheck.s1.holds c = true ↔ 1 ≤ c.symtab.length ∧ c.symtab.length ≤ 256 := by
  simp only [ConfigCheck.holds, Bool.and_eq_true, decide_eq_true_eq]
  rfl

theorem holds_s2_iff : ConfigCheck.s2.holds c = true ↔
    ∀ g : Byte, (0x30 ≤ g.toNat ∧ g.toNat ≤ 0x39) ∨ (0x61 ≤ g.toNat ∧ g.toNat ≤ 0x66) ∨ g = 0x2D ∨ g = 0x20 →
      ∃ e ∈ c.symtab, e.glyph = g := by
  simp only [ConfigCheck.holds, List.all_eq_true, mem_requiredGlyphs_iff, hasGlyph_iff]

theorem holds_s3_iff : ConfigCheck.s3.holds c = true ↔ c.segmentsFor 0x20 = 0x00 := beq_iff_eq

theorem holds_s4_iff : ConfigCheck.s4.holds c = true ↔
    ∀ e ∈ c.symtab, e.glyph ≠ 0x78 ∧ e.glyph ≠ 0x79 ∧ e.glyph ≠ 0x7A := by
  have hhas : ∀ g, hasGlyph c.symtab g = false ↔ ∀ e ∈ c.symtab, e.glyph ≠ g := by simp [hasGlyph]
  simp [ConfigCheck.holds, forbiddenGlyphs, hhas, forall_and]

/-- S1 to S4 read the symbol table alone. -/
theorem holds_congr_symtab {c d : Config} (h : c.symtab = d.symtab) :
    ∀ k ∈ [ConfigCheck.s1, ConfigCheck.s2, ConfigCheck.s3, ConfigCheck.s4], k.holds c = k.holds d := by
  obtain ⟨_, _, _, _, t, _⟩ := c
  obtain ⟨_, _, _, _, t', _⟩ := d
  obtain rfl : t = t' := h
  intro k hk
  simp only [List.mem_cons, List.not_mem_nil, or_false] at hk
  rcases hk with rfl | rfl | rfl | rfl <;> rfl

/-- An admitted configuration passes the twelve checks, in the order of R171. -/
theorem admitted_iff_checks : c.admitted = true ↔
    ConfigCheck.k1.holds c = true ∧ ConfigCheck.k2.holds c = true ∧ ConfigCheck.m1.holds c = true ∧
    ConfigCheck.m2.holds c = true ∧ ConfigCheck.m3.holds c = true ∧ ConfigCheck.m4.holds c = true ∧
    ConfigCheck.m5.holds c = true ∧ ConfigCheck.m6.holds c = true ∧ ConfigCheck.s1.holds c = true ∧
    ConfigCheck.s2.holds c = true ∧ ConfigCheck.s3.holds c = true ∧ ConfigCheck.s4.holds c = true := by
  simp [admitted, ConfigCheck.all]

end Config

/-- Settles O6: the union of masks is taken byte by byte (`PortMask.byte_or`). -/
theorem digitAndAggregateMasks : Obligations.DigitAndAggregateMasks :=
  ⟨fun c _ => ⟨c.maskForDigit_used, c.maskForDigit_unused⟩,
    fun c p => ⟨c.allSegmentsMask_byte p, c.allDigitsMask_byte p, PortMask.byte_or _ _ p⟩⟩

/-- Settles O7, check by check. -/
theorem admittedConfigurations : Obligations.AdmittedConfigurations := by
  intro c
  rw [c.admitted_iff_checks, c.holds_k1_iff, c.holds_k2_iff, c.holds_m1_iff, c.holds_m2_iff, c.holds_m3_iff,
    c.holds_m4_iff, c.holds_m5_iff, c.holds_m6_iff, c.holds_s1_iff, c.holds_s2_iff, c.holds_s3_iff, c.holds_s4_iff]

/-- Settles O8: the scan stops at the first match. -/
theorem segmentsForIsTheFirstMatch : Obligations.SegmentsForIsTheFirstMatch :=
  fun _ _ => ⟨fun _ _ he hg hfirst => segmentsIn_of_first_match he hg hfirst, segmentsIn_of_no_match⟩

/-- Settles O9: a glyph without an entry renders blank, and the reset configuration, which is admitted, has this table. -/
theorem defaultSymbolTable : Obligations.DefaultSymbolTable := by
  refine ⟨rfl, ?unnamed, ?others, ?noDp, ?checks⟩
  case unnamed =>
    intro c hc
    simp [ConstructInput.config, hc]
  case others =>
    intro g hg
    exact segmentsIn_of_no_match fun e he hglyph => hg (List.mem_map.2 ⟨e, he, hglyph⟩)
  case noDp => decide
  case checks =>
    have hreset : resetInput.config.admitted = true := by decide
    intro c hc k hk
    rw [Config.holds_congr_symtab (d := resetInput.config) hc k hk]
    exact Config.holds_of_admitted hreset k

/-- Settles O10, polarity by polarity (R99) and by the two cases of each resolver (R100, R101). -/
theorem polarityLevels : Obligations.PolarityLevels := by
  refine ⟨?ca, ?cc, ?caid, ?ccid, ?digit, ?segment⟩
  case ca => exact ⟨rfl, rfl⟩
  case cc => exact ⟨rfl, rfl⟩
  case caid => exact ⟨rfl, rfl⟩
  case ccid => exact ⟨rfl, rfl⟩
  case digit => exact fun pol => ⟨if_pos rfl, if_neg Bool.false_ne_true⟩
  case segment => exact fun pol => ⟨if_pos rfl, if_neg Bool.false_ne_true⟩

namespace Machine

/-! ### A drive (R103) -/

/-- The ports a drive of a mask writes, in ascending order. -/
def drivenPorts (n : Nat) (m : PortMask) : List Nat := (List.range n).filter fun p => m.byte p != 0

theorem drivenPorts_ascending (n : Nat) (m : PortMask) : (drivenPorts n m).Pairwise (· < ·) :=
  List.pairwise_lt_range.filter _

theorem mem_drivenPorts_iff {n : Nat} {m : PortMask} {p : Nat} : p ∈ drivenPorts n m ↔ p < n ∧ m.byte p ≠ 0 := by
  simp [drivenPorts]

theorem groupCalls_eq_map (n : Nat) (m : PortMask) (level : Bool) : groupCalls n m level =
    (drivenPorts n m).map fun p => if level then .portSet p (m.byte p) else .portClear p (m.byte p) :=
  filterMap_nonzero _ m _

theorem driveGroup_readPort_beyond (s : State) (m : PortMask) (level : Bool) {p : Nat} (hp : s.config.nports ≤ p) :
    (s.driveGroup m level).readPort p = s.readPort p :=
  (s.driveGroup_port m level p).trans (if_neg (Nat.not_lt.2 hp))

/-- Settles O12: the trace by the drive's list of calls, the levels pin by pin. -/
theorem driveGroupWritesTheMask : Obligations.DriveGroupWritesTheMask := by
  intro s m level hports
  refine ⟨?calls, ?levels, ?beyond, s.driveGroup_dir m level⟩
  case calls =>
    exact ⟨_, s.driveGroup_trace m level, _, drivenPorts_ascending _ m, fun _ => mem_drivenPorts_iff,
      groupCalls_eq_map _ m level⟩
  case levels => exact fun p b hp => s.driveGroup_portBit m level hp (hp.trans_le hports) b
  case beyond => exact fun p hp => driveGroup_readPort_beyond s m level hp

end Machine

end Sys2Proof
end

section
/-!
BEGIN and BLANK (41_init_blank.md): the pattern they leave, their frame, their calls, and what a second one changes. Any
two blanked states of one configuration agree on every owned pin, so a second BEGIN could change PORT outside OWN only,
where no command writes.
-/

namespace Sys2Proof.Machine

/-! ### The two commands as calls -/

theorem exec_begin (s : State) : exec .begin s = .next (s.performAll (beginCalls s)) := exec_eq .begin s

theorem exec_blank (s : State) : exec .blank s = .next (s.performAll (blankCalls s.config)) := exec_eq .blank s

/-- Calls write none of what SameRecord compares. -/
theorem sameRecord_performAll (s : State) (cs : List PrimCall) : s.SameRecord (s.performAll cs) := by
  simp [State.SameRecord]

/-! ### The inactive pattern (40_lookup.md R107) -/

/-- Blanking the owned pins leaves the inactive pattern, whatever happens to DIR. -/
theorem blanked_of_port {s t : State} (h : s.Inv) (hc : t.config = s.config)
    (hport : t.port = (s.performAll (blankCalls s.config)).port) : t.Blanked :=
  blanked_of_bits h hc fun p b hp =>
    (State.portBit_congr hport p b).trans (performAll_blankCalls_portBit s hp (hp.trans_le h.ports) b)

theorem blanked_performAll_blankCalls {s : State} (h : s.Inv) : (s.performAll (blankCalls s.config)).Blanked :=
  blanked_of_port h (s.performAll_config _) rfl

theorem blanked_performAll_beginCalls {s : State} (h : s.Inv) : (s.performAll (beginCalls s)).Blanked :=
  blanked_of_port h (s.performAll_config _) (performAll_beginCalls_port s)

/-- The inactive pattern fixes the level of every owned pin. -/
theorem State.Blanked.portBit_eq {s t : State} (hs : s.Blanked) (ht : t.Blanked) (hc : t.config = s.config) {p b : Nat}
    (hp : p < s.config.nports) (hpin : s.config.own.hasPin p b = true) : t.portBit p b = s.portBit p b := by
  obtain ⟨hsd, hss⟩ := hs p b hp
  obtain ⟨htd, hts⟩ := ht p b (hc ▸ hp)
  rw [hc] at htd hts
  rw [Config.own_hasPin, Bool.or_eq_true] at hpin
  rcases hpin with hseg | hdig
  · rw [hss hseg, hts hseg]
  · rw [hsd hdig, htd hdig]

/-! ### Registers that agree outside OWN -/

section SameOutsideOwn
variable {s t : State} (h : s.SameOutsideOwn t)
include h

/-- Blanked states that agree outside OWN have the same PORT. -/
theorem port_eq_of_blanked (ha : s.config.admitted = true) (hc : t.config = s.config) (hs : s.Blanked)
    (ht : t.Blanked) : t.port = s.port := by
  obtain ⟨hlen, -, hout⟩ := h
  refine State.port_ext hlen.symm fun p b => ?_
  cases hpin : s.config.own.hasPin p b
  · exact (hout p b hpin).1
  · exact hs.portBit_eq ht hc (Config.own_pin_port ha hpin) hpin

/-- States whose owned pins are all outputs and that agree outside OWN have the same DIR. -/
theorem dir_eq_of_outputs (hs : ∀ p b, s.config.own.hasPin p b = true → s.dirBit p b = true)
    (ht : ∀ p b, s.config.own.hasPin p b = true → t.dirBit p b = true) : t.dir = s.dir := by
  obtain ⟨-, hlen, hout⟩ := h
  refine State.dir_ext hlen.symm fun p b => ?_
  cases hpin : s.config.own.hasPin p b
  · exact (hout p b hpin).2
  · rw [hs p b hpin, ht p b hpin]

end SameOutsideOwn

/-! ### Results and frames -/

/-- Settles O16: the directions by the first loop, the levels by `blankAll`, the frame because every call is owned. -/
theorem beginResult : Obligations.BeginResult := by
  intro s h
  exact ⟨_, exec_begin s, performAll_beginCalls_dirBit h, blanked_performAll_beginCalls h,
    sameOutsideOwn_of_calls (fun _ hk => beginCalls_owned hk) rfl rfl, sameRecord_performAll s _,
    by simp, by simp, by simp, by simp⟩

/-- Settles O18: as BEGIN, with no call that writes DIR. -/
theorem blankResult : Obligations.BlankResult := by
  intro s h
  exact ⟨_, exec_blank s, blanked_performAll_blankCalls h,
    sameOutsideOwn_of_calls (fun _ hk => blankCalls_owned hk) rfl rfl, sameRecord_performAll s _,
    performAll_blankCalls_dir s _, by simp, by simp, by simp, by simp⟩

/-! ### Calls -/

theorem dirCalls_eq_map (n : Nat) (m : PortMask) :
    dirCalls n m = (drivenPorts n m).map fun p => .dirOut p (m.byte p) := filterMap_nonzero _ m _

theorem blankCalls_eq (c : Config) : blankCalls c = groupCalls c.nports c.allDigitsMask (!c.pol.digitActive) ++
    groupCalls c.nports c.allSegmentsMask (!c.pol.segActive) := rfl

/-- A drive to the inactive level clears the pins of an active-high mask and sets those of an active-low one. -/
theorem groupCalls_inactive_eq_map (n : Nat) (m : PortMask) (active : Bool) : groupCalls n m (!active) =
    (drivenPorts n m).map fun p => if active then .portClear p (m.byte p) else .portSet p (m.byte p) := by
  cases active <;> exact groupCalls_eq_map n m _

/-- Settles O51: the two drives of `blankAll`, each to its axis's inactive level. -/
theorem blankTrace : Obligations.BlankTrace := by
  intro s
  exact ⟨_, _, _, exec_blank s, by rw [State.performAll_trace, blankCalls_eq, List.append_assoc],
    groupCalls_inactive_eq_map _ _ _, groupCalls_inactive_eq_map _ _ _⟩

/-- Settles O17: the outputs, then the two drives of `blankAll`. -/
theorem beginTrace : Obligations.BeginTrace := by
  intro s
  exact ⟨_, _, _, _, exec_begin s,
    by rw [State.performAll_trace, beginCalls, blankCalls_eq, List.append_assoc, List.append_assoc],
    dirCalls_eq_map _ _, groupCalls_inactive_eq_map _ _ _, groupCalls_inactive_eq_map _ _ _⟩

/-! ### A second BLANK -/

/-- Blanking an output register twice is blanking it once: on every pin the level last driven is the same. -/
theorem blankCalls_onPort_idem (c : Config) (p : Nat) (v : Byte) :
    (blankCalls c).foldl (fun v c => c.onPort p v) ((blankCalls c).foldl (fun v c => c.onPort p v) v) =
      (blankCalls c).foldl (fun v c => c.onPort p v) v := by
  by_cases hp : p < c.nports
  · apply BitVec.eq_of_getLsbD_eq
    intro b _
    simp only [State.blankCalls_portBit c hp]
    split_ifs <;> rfl
  · simp [blankCalls, groupCalls_onPort, hp]

/-- Settles O20, register by register; it needs no check of the configuration, overlapping masks included. -/
theorem blankIsIdempotent : Obligations.BlankIsIdempotent := by
  intro s s1 h1
  obtain rfl : s1 = s.performAll (blankCalls s.config) := exec_cases h1
  refine ⟨_, exec_blank _, List.ext_getElem? fun p => ?port, performAll_blankCalls_dir _ _⟩
  case port => simp [State.performAll_port, Function.comp_def, blankCalls_onPort_idem]

/-! ### A later BEGIN -/

theorem State.Inv.execAll {s t : State} (h : s.Inv) {is : List Instr} (he : execAll is s = .next t) : t.Inv := by
  induction is generalizing s with
  | nil => cases he; exact h
  | cons i is ih =>
    rw [execAll_cons] at he
    exact ih (h.exec (exec_eq i s)) he

/-- Inversion: the configuration, the bits outside OWN and the outputs stay, from any commands to their end. -/
theorem execAll_frame {is : List Instr} {s t : State} (h : execAll is s = .next t) : t.config = s.config ∧
    s.SameOutsideOwn t ∧ ∀ p b, s.dirBit p b = true → t.dirBit p b = true := by
  obtain ⟨t', ht', hframe⟩ := execAll_next is s
  obtain rfl : t' = t := Host.Outcome.next.inj (ht'.symm.trans h)
  exact hframe

section Begin
variable {s t : State} (h : s.Inv) (hb : exec .begin s = .next t)
include h hb

theorem blanked_of_begin : t.Blanked := by
  obtain rfl := exec_cases hb
  exact blanked_performAll_beginCalls h

theorem outputs_of_begin (p b : Nat) (hpin : t.config.own.hasPin p b = true) : t.dirBit p b = true := by
  rw [exec_config hb] at hpin
  obtain rfl := exec_cases hb
  exact (performAll_beginCalls_dirBit h p b).trans (by rw [hpin, Bool.or_true])

end Begin

/-- Settles O19: both BEGINs leave the inactive pattern, and no command between them makes an output an input. -/
theorem beginIsIdempotent : Obligations.BeginIsIdempotent := by
  intro s s1 is h h1
  obtain ⟨u, hu, -⟩ := execAll_next is s1
  have hs1 : s1.Inv := h.exec h1
  have hsecond : execAll (is ++ [.begin]) s1 = .next (u.performAll (beginCalls u)) :=
    (execAll_append is [.begin] s1 u hu).trans (execAll_cons .begin [] u)
  obtain ⟨hconfig, hsame, houtputs⟩ := execAll_frame hsecond
  have hblanked := blanked_performAll_beginCalls (hs1.execAll hu)
  have hdir := outputs_of_begin h h1
  exact ⟨u, _, hu, exec_begin u, dir_eq_of_outputs hsame hdir fun p b hpin => houtputs p b (hdir p b hpin),
    port_eq_of_blanked hsame hs1.admitted hconfig (blanked_of_begin h h1) hblanked, hblanked⟩

end Sys2Proof.Machine
end

section
/-!
The content commands (42_content.md): the cells SETSTR and SETINT write, and the decimal text of R122, which is Mathlib's
`Nat.digits` in base ten, most significant first, each digit as its ASCII byte.
-/

namespace Sys2Proof.Machine

/-! ### SETSTR, SETINT and SETDP (R120 to R126) -/

theorem exec_setstr (len : Nat) (c0 c1 c2 c3 : Byte) (s : State) :
    exec (.setstr len c0 c1 c2 c3) s = .next (s.writeText len [c0, c1, c2, c3]) := rfl

theorem exec_setint (v : Int) (s : State) : exec (.setint v) s = .next (s.writeText (dec v).length (dec v)) := rfl

theorem exec_setdp (en : Bool) (s : State) : exec (.setdp en) s = .next (s.setDp en) := rfl

/-- A cell below LEN that the text reaches does not depend on what the cell held. -/
theorem writeText_cell_of_lt (s : State) {len : Nat} {t : List Byte} {i : Fin 4} (h : i.val < len → i.val < t.length) :
    (s.writeText len t).buf[i] = if i.val < len ∧ i.val < s.config.digits then t.getD i.val 0 else s.buf[i] := by
  rw [writeText_cell]
  refine if_ctx_congr Iff.rfl (fun hi => ?text) fun _ => rfl
  case text => rw [List.getD_eq_getElem _ _ (h hi.1), List.getD_eq_getElem _ _ (h hi.1)]

/-- Settles O23: the four characters of DATA reach every cell of the buffer, whatever LEN is. -/
theorem setstrResult : Obligations.SetstrResult :=
  fun s len c0 c1 c2 c3 => ⟨_, exec_setstr len c0 c1 c2 c3 s, fun i => writeText_cell_of_lt s fun _ => i.isLt, rfl⟩

/-- Settles O24: the length written is the length of the decimal text itself. -/
theorem setintResult : Obligations.SetintResult :=
  fun s v => ⟨_, exec_setint v s, fun _ => writeText_cell_of_lt s id, rfl⟩

/-- Settles O26: `setDp` is the statement's update of DP. -/
theorem setdpResult : Obligations.SetdpResult := fun s en => exec_setdp en s

/-! ### The decimal text (R122) -/

/-- The ASCII byte of a decimal digit. -/
def digitByte (d : Nat) : Byte := BitVec.ofNat 8 (0x30 + d)

theorem digitByte_toNat {d : Nat} (h : d < 10) : (digitByte d).toNat = 0x30 + d := by
  rw [digitByte, BitVec.toNat_ofNat]
  exact Nat.mod_eq_of_lt (by omega)

/-- The loop of `dec` writes the base-ten digits, most significant first. -/
theorem natText_eq_digits (a : Nat) : natText a = ((Nat.digits 10 a).map digitByte).reverse := by
  induction a using Nat.strongRecOn with
  | ind a ih =>
    by_cases h : a = 0
    · simp [h]
    · rw [natText_pos h, ih (a / 10) (by omega), Nat.digits_def' (by decide) (Nat.pos_of_ne_zero h), List.map_cons,
        List.reverse_cons, digitByte]

theorem natText_mem {a : Nat} {x : Byte} (h : x ∈ natText a) : 0x30 ≤ x.toNat ∧ x.toNat ≤ 0x39 := by
  rw [natText_eq_digits, List.mem_reverse, List.mem_map] at h
  obtain ⟨d, hd, rfl⟩ := h
  have hlt : d < 10 := Nat.digits_lt_base (by decide) hd
  rw [digitByte_toNat hlt]
  omega

theorem natText_ne_nil {a : Nat} (h : a ≠ 0) : natText a ≠ [] := by
  rw [natText_pos h]
  exact List.append_ne_nil_of_right_ne_nil _ (List.cons_ne_nil _ _)

/-- No leading zero: the most significant digit is not 0. -/
theorem natText_head?_ne {a : Nat} (h : a ≠ 0) : (natText a).head? ≠ some 0x30 := by
  have hnil : Nat.digits 10 a ≠ [] := Nat.digits_ne_nil_iff_ne_zero.2 h
  have hlast : (Nat.digits 10 a).getLast hnil ≠ 0 := Nat.getLast_digit_ne_zero 10 h
  have hlt : (Nat.digits 10 a).getLast hnil < 10 := Nat.digits_lt_base (by decide) (List.getLast_mem hnil)
  rw [natText_eq_digits, List.head?_reverse, List.getLast?_map, List.getLast?_eq_getLast_of_ne_nil hnil]
  intro hhead
  have hbyte : 0x30 + (Nat.digits 10 a).getLast hnil = 0x30 :=
    (digitByte_toNat hlt).symm.trans (congrArg BitVec.toNat (Option.some.inj hhead))
  omega

/-- The number a text of decimal digits denotes, read from the left. -/
def textValue (t : List Byte) : Nat := t.foldl (fun n x => 10 * n + (x.toNat - 0x30)) 0

theorem textValue_natText (a : Nat) : textValue (natText a) = a := by
  rw [textValue, natText_eq_digits, List.foldl_reverse, List.foldr_map]
  calc (Nat.digits 10 a).foldr (fun d n => 10 * n + ((digitByte d).toNat - 0x30)) 0
    _ = (Nat.digits 10 a).foldr (fun d n => d + 10 * n) 0 := by
      refine List.foldr_ext _ _ 0 fun d hd n => ?_
      rw [digitByte_toNat (Nat.digits_lt_base (by decide) hd)]
      omega
    _ = Nat.ofDigits 10 (Nat.digits 10 a) := (Nat.ofDigits_eq_foldr 10 _).symm
    _ = a := Nat.ofDigits_digits 10 a

theorem natText_length_le_iff (a k : Nat) : (natText a).length ≤ k ↔ a < 10 ^ k := by
  rw [natText_eq_digits, List.length_reverse, List.length_map]
  exact Nat.digits_length_le_iff (by decide) a

/-- The text of a 32-bit integer: at most ten digits, and ten after a sign exactly from -1000000000 down. -/
theorem dec_length_of_int32 {v : Int} (hlo : -2147483648 ≤ v) (hhi : v ≤ 2147483647) :
    1 ≤ (dec v).length ∧ (dec v).length ≤ 11 ∧ ((dec v).length = 11 ↔ v ≤ -1000000000) := by
  have hten : (natText v.natAbs).length ≤ 10 := (natText_length_le_iff _ 10).2 (by omega)
  have hnine : (natText v.natAbs).length ≤ 9 ↔ v.natAbs < 1000000000 := natText_length_le_iff _ 9
  rcases lt_trichotomy v 0 with hneg | rfl | hpos
  · rw [dec_neg hneg, List.length_cons]
    omega
  · rw [dec_zero]
    decide
  · have hone : 1 ≤ (natText v.natAbs).length := List.length_pos_iff.2 (natText_ne_nil (by omega))
    rw [dec_pos hpos]
    omega

/-- Settles O25: a positive `v` is its text of digits, and a negative one has '-' before the text of the magnitude. -/
theorem decimalText : Obligations.DecimalText := by
  refine ⟨dec_zero, fun v hpos => ?positive, fun v hneg => ?negative, fun v => dec_length_of_int32⟩
  case positive =>
    have hne : v.natAbs ≠ 0 := Int.natAbs_ne_zero.2 hpos.ne'
    have hvalue : ((textValue (natText v.natAbs) : Nat) : Int) = v := by
      rw [textValue_natText, Int.natAbs_of_nonneg hpos.le]
    rw [dec_pos hpos]
    exact ⟨fun _ => natText_mem, natText_head?_ne hne, natText_ne_nil hne, hvalue⟩
  case negative => rw [dec_neg hneg, dec_pos (Int.neg_pos_of_neg hneg), Int.natAbs_neg]

end Sys2Proof.Machine
end

section
/-!
The multiplexing commands ADVANCE and TEST (43_multiplex.md). Both make the same calls, `renderCalls`: blank, drive a
list of segments active, select the slot; they differ in the segments. What these calls leave on the pins and what each
single one can do to a select pin is proved once, for every list of segments.
-/

namespace Sys2Proof.Machine

/-! ### The two commands as calls -/

theorem exec_advance (s : State) :
    exec .advance s = .next ((s.performAll (advanceCalls s)).setCur s.nextCur) := exec_eq .advance s

theorem exec_test (s : State) :
    exec .test s = .next (((s.performAll (testCalls s)).setCur s.testCur).setSymcur s.nextSymcur) := exec_eq .test s

/-- The calls that drive a list of segments active, in order. -/
def segmentListCalls (c : Config) (ids : List SegmentId) : List PrimCall := ids.flatMap (segmentCalls c)

/-- Blank, drive these segments active, select the slot. -/
def renderCalls (c : Config) (ids : List SegmentId) (slot : Fin 4) : List PrimCall :=
  blankCalls c ++ segmentListCalls c ids ++ digitCalls c slot

/-- The segments of a set, in the order `lightSegs` drives them (40_lookup.md R108). -/
def segmentsOf (segs : Byte) : List SegmentId := SegmentId.all.filter (inSegs segs)

/-- The segments ADVANCE drives: the glyph's, then DP when it fires (43_multiplex.md R135 steps 3 and 4). -/
def advanceSegments (s : State) : List SegmentId :=
  segmentsOf (s.config.segmentsFor s.buf[s.cur]) ++ if s.dpFires then [.dp] else []

theorem lightCalls_eq_filter (c : Config) (segs : Byte) (ids : List SegmentId) :
    lightCalls c segs ids = segmentListCalls c (ids.filter (inSegs segs)) := by
  induction ids with
  | nil => rfl
  | cons id ids ih =>
    simp only [lightCalls, segmentListCalls, List.flatMap_cons] at ih ⊢
    cases hid : inSegs segs id <;> simp [hid, ih]

theorem lightCalls_eq (c : Config) (segs : Byte) : lightCalls c segs SegmentId.all =
    segmentListCalls c (segmentsOf segs) := lightCalls_eq_filter c segs SegmentId.all

theorem advanceCalls_eq (s : State) : advanceCalls s = renderCalls s.config (advanceSegments s) s.cur := by
  have hdp : (if s.dpFires then segmentCalls s.config .dp else []) =
      segmentListCalls s.config (if s.dpFires then [.dp] else []) := by
    cases s.dpFires <;> simp [segmentListCalls]
  simp only [advanceCalls, renderCalls, advanceSegments, lightCalls_eq, hdp, segmentListCalls, List.flatMap_append,
    List.append_assoc]

theorem testCalls_eq (s : State) : testCalls s =
    renderCalls s.config (segmentsOf (s.config.entrySegs s.symcur.val)) s.cur := by
  rw [testCalls, renderCalls, lightCalls_eq]

theorem dpFires_iff (s : State) : s.dpFires = true ↔ s.cur.val + 1 = s.config.digits ∧ s.dp = true := by
  simp [State.dpFires, State.atLastSlot]

theorem entrySegs_of_entry {c : Config} {k : Nat} {e : SymEntry} (h : c.symtab[k]? = some e) :
    c.entrySegs k = e.segs := by
  simp only [Config.entrySegs, h]

/-! ### Their traces (I7, log 13) -/

/-- Settles O30: the calls of ADVANCE are those of `renderCalls` for its segments. -/
theorem advanceTrace : Obligations.AdvanceTrace := by
  intro s
  refine ⟨_, exec_advance s, ?_⟩
  rw [State.setCur_trace, State.performAll_trace, advanceCalls_eq, advanceSegments, if_congr (dpFires_iff s) rfl rfl,
    renderCalls, List.append_assoc, List.append_assoc, List.append_assoc]
  rfl

/-- Settles O52: the calls of TEST are those of `renderCalls` for the segments of the entry. -/
theorem testTrace : Obligations.TestTrace := by
  intro s e he
  refine ⟨_, exec_test s, ?_⟩
  rw [State.setSymcur_trace, State.setCur_trace, State.performAll_trace, testCalls_eq, entrySegs_of_entry he,
    renderCalls, List.append_assoc, List.append_assoc, List.append_assoc]
  rfl

/-! ### The rendered pattern (40_lookup.md R109) -/

theorem inSegs_full (id : SegmentId) : inSegs 0xFF id = true := by cases id <;> decide

/-- Driving a list of segments is lighting the list from the full set, so the pin lemmas about `lightCalls` apply. -/
theorem segmentListCalls_eq_lightCalls (c : Config) (ids : List SegmentId) :
    segmentListCalls c ids = lightCalls c 0xFF ids := by
  simp only [segmentListCalls, lightCalls, inSegs_full, if_true]

/-- The rendered pattern depends on which segments are driven, not on their order or number. -/
theorem rendered_of_port {s t : State} (h : s.Inv) (hc : t.config = s.config) {ids : List SegmentId} {slot : Fin 4}
    {segs : Byte} (hids : ∀ id, id ∈ ids ↔ inSegs segs id = true)
    (hport : t.port = (s.performAll (renderCalls s.config ids slot)).port) : t.Rendered slot segs := by
  have hany : ∀ f : SegmentId → Bool,
      ids.any (fun id => inSegs 0xFF id && f id) = SegmentId.all.any (fun id => inSegs segs id && f id) := by
    intro f
    rw [Bool.eq_iff_iff]
    simp only [List.any_eq_true, Bool.and_eq_true, inSegs_full, hids, SegmentId.mem_all, true_and]
  refine rendered h hc slot segs fun p b hp => ?_
  rw [State.portBit_congr hport, renderCalls, segmentListCalls_eq_lightCalls, render_bits h _ _ _ hp, hany]

theorem mem_segmentsOf (segs : Byte) (id : SegmentId) : id ∈ segmentsOf segs ↔ inSegs segs id = true := by
  simp [segmentsOf]

/-- The set ADVANCE shows: the glyph's segments, with DP on the last slot when the flag is on. -/
def advanceSegs (s : State) : Byte := s.config.segmentsFor s.buf[s.cur] |||
  (if s.cur.val = s.config.digits - 1 ∧ s.dp = true then 0x80 else 0x00)

/-- With at least one digit, step 4's condition is that of the set. -/
theorem mem_advanceSegments {s : State} (h : s.Inv) (id : SegmentId) :
    id ∈ advanceSegments s ↔ inSegs (advanceSegs s) id = true := by
  have hlast : s.cur.val = s.config.digits - 1 ∧ s.dp = true ↔ s.dpFires = true := by
    have hpos := Config.digits_pos h.admitted
    rw [dpFires_iff]
    exact and_congr_left' (by omega)
  rw [advanceSegments, advanceSegs, if_congr hlast rfl rfl, List.mem_append, mem_segmentsOf, inSegs_or, Bool.or_eq_true]
  by_cases hfires : s.dpFires = true
  · rw [if_pos hfires, if_pos hfires, List.mem_singleton, inSegs_dp, beq_iff_eq]
  · rw [if_neg hfires, if_neg hfires, inSegs_blank, List.mem_nil_iff, Bool.false_eq_true]

/-! ### Results and frames -/

theorem renderCalls_onDir (c : Config) (ids : List SegmentId) (slot : Fin 4) (p : Nat) (v : Byte) :
    (renderCalls c ids slot).foldl (fun v k => k.onDir p v) v = v := by
  have hids : (segmentListCalls c ids).foldl (fun v k => k.onDir p v) v = v := by
    induction ids with
    | nil => rfl
    | cons id ids ih =>
      rw [segmentListCalls, List.flatMap_cons, List.foldl_append, segmentCalls, groupCalls_onDir]
      exact ih
  rw [renderCalls, List.foldl_append, List.foldl_append, blankCalls_onDir, hids, digitCalls, groupCalls_onDir]

theorem performAll_renderCalls_dir (s : State) (c : Config) (ids : List SegmentId) (slot : Fin 4) :
    (s.performAll (renderCalls c ids slot)).dir = s.dir := by
  refine List.ext_getElem? fun p => ?_
  simp [State.performAll_dir, renderCalls_onDir]

section Exec
variable {i : Instr} {s t : State} (he : exec i s = .next t)
include he

/-- No command writes what SameRecord compares. -/
theorem sameRecord_of_exec : s.SameRecord t := by simp [exec_cases he, State.SameRecord]

theorem sameOutsideOwn_of_exec : s.SameOutsideOwn t := by
  obtain rfl := exec_cases he
  exact sameOutsideOwn_of_calls (fun _ hk => commandCalls_owned (i := i) hk) (finish_port i s _) (finish_dir i s _)

end Exec

theorem rendered_of_advance {s t : State} (h : s.Inv) (he : exec .advance s = .next t) :
    t.Rendered s.cur (advanceSegs s) := by
  refine rendered_of_port h (exec_config he) (mem_advanceSegments h) ?_
  rw [exec_cases he, finish_port, commandCalls, advanceCalls_eq]

theorem rendered_of_test {s t : State} (h : s.Inv) (he : exec .test s = .next t) :
    t.Rendered s.cur (s.config.entrySegs s.symcur.val) := by
  refine rendered_of_port h (exec_config he) (mem_segmentsOf _) ?_
  rw [exec_cases he, finish_port, commandCalls, testCalls_eq]

/-- The entry TEST shows is in the table. -/
theorem exists_entry {s : State} (h : s.Inv) : ∃ e, s.config.symtab[s.symcur.val]? = some e :=
  ⟨_, List.getElem?_eq_getElem h.symcur_lt⟩

theorem testCur_val {s : State} (h : s.config.admitted = true) : s.testCur.val =
    if s.config.testAdvancesCur then (s.cur.val + 1) % s.config.digits else s.cur.val := by
  rw [State.testCur, apply_ite Fin.val, nextCur_val h]

/-- Settles O28: the levels pin by pin, the frame because every call is owned and none writes DIR. -/
theorem advanceResult : Obligations.AdvanceResult := by
  intro s h
  have he := exec_advance s
  refine ⟨_, he, rendered_of_advance h he, nextCur_val h.admitted, sameOutsideOwn_of_exec he, sameRecord_of_exec he,
    ?dir, by simp, by simp, by simp⟩
  case dir => rw [State.setCur_dir, advanceCalls_eq, performAll_renderCalls_dir]

/-- Settles O29: as ADVANCE, with the entry SYMCUR, which the invariant puts in the table. -/
theorem testResult : Obligations.TestResult := by
  intro s h
  obtain ⟨e, hentry⟩ := exists_entry h
  have he := exec_test s
  refine ⟨_, e, he, hentry, entrySegs_of_entry hentry ▸ rendered_of_test h he, testCur_val h.admitted,
    nextSymcur_val h.admitted, sameOutsideOwn_of_exec he, sameRecord_of_exec he, ?dir, by simp, by simp⟩
  case dir => rw [State.setSymcur_dir, State.setCur_dir, testCalls_eq, performAll_renderCalls_dir]

/-! ### Active slots, from the levels (43_multiplex.md R136) -/

theorem slotActive_iff (s : State) (i : Fin 4) : s.slotActive i = true ↔ ∃ p < s.config.nports, ∃ b,
    (s.config.maskForDigit i).hasPin p b = true ∧ s.portBit p b = s.config.pol.digitActive := by
  simp only [State.slotActive, State.maskTouched, List.any_eq_true, List.mem_range, Bool.and_eq_true, beq_iff_eq]
  constructor
  · rintro ⟨p, hp, b, -, hpin, hbit⟩
    exact ⟨p, hp, b, hpin, hbit⟩
  · rintro ⟨p, hp, b, hpin, hbit⟩
    exact ⟨p, hp, b, PortMask.hasPin_lt hpin, hpin, hbit⟩

theorem slotActive_eq_false {s : State} {i : Fin 4} (h : ∀ p b, p < s.config.nports →
    (s.config.maskForDigit i).hasPin p b = true → s.portBit p b = !s.config.pol.digitActive) :
    s.slotActive i = false := by
  rw [← Bool.not_eq_true, slotActive_iff]
  rintro ⟨p, hp, b, hpin, hbit⟩
  rw [h p b hp hpin] at hbit
  exact Bool.not_ne_self _ hbit

/-- A command without calls keeps PORT, so it makes no slot active. -/
theorem atMostOneActive_of_no_calls {i : Instr} {s t : State} (he : exec i s = .next t) (hcalls : commandCalls i s = [])
    (h : s.AtMostOneActive) : t.AtMostOneActive := by
  have hport : t.port = s.port := by rw [exec_cases he, finish_port, hcalls, State.performAll_nil]
  simpa only [State.AtMostOneActive, State.slotActive, State.maskTouched, exec_config he,
    State.portBit_congr hport] using h

theorem State.NoneActive.atMostOneActive {s : State} (h : s.NoneActive) : s.AtMostOneActive :=
  fun i _ hi => absurd hi (Bool.eq_false_iff.1 (h i))

theorem State.Blanked.noneActive {s : State} (h : s.Blanked) : s.NoneActive := fun i =>
  slotActive_eq_false fun p b hp hpin => (h p b hp).1 ((Config.allDigitsMask_hasPin _ p b).2 ⟨i, hpin⟩)

/-- A state where no slot other than this one is active has at most one active. -/
theorem atMostOneActive_of_only {s : State} {slot : Fin 4} (h : ∀ i, s.slotActive i = true → i = slot) :
    s.AtMostOneActive := fun i j hi hj => (h i hi).trans (h j hj).symm

section Rendered
variable {s : State} {slot : Fin 4} {segs : Byte} (h : s.Rendered slot segs)
include h

theorem State.Rendered.slotActive_other {other : Fin 4} (ho : other ≠ slot) : s.slotActive other = false :=
  slotActive_eq_false fun p b hp => (h p b hp).2.1 other ho

theorem State.Rendered.atMostOneActive : s.AtMostOneActive := atMostOneActive_of_only fun i hi => by
  by_contra hne
  exact absurd hi (Bool.eq_false_iff.1 (h.slotActive_other hne))

/-- The slot itself is active: it has a select pin (check M4). -/
theorem State.Rendered.slotActive_self (ha : s.config.admitted = true) (hslot : slot.val < s.config.digits) :
    s.slotActive slot = true := by
  obtain ⟨p, b, hpin⟩ := Config.digit_pin_exists ha hslot
  have hp := Config.digit_pin_port ha hpin
  exact (slotActive_iff s slot).2 ⟨p, hp, b, hpin, (h p b hp).1 hpin⟩

theorem State.Rendered.segment_portBit (ha : s.config.admitted = true) (id : SegmentId) (p b : Nat)
    (hpin : (s.config.maskForSegment id).hasPin p b = true) :
    s.portBit p b = if inSegs segs id then s.config.pol.segActive else !s.config.pol.segActive :=
  (h p b (Config.segment_pin_port ha hpin)).2.2 id hpin

end Rendered

/-- Settles O33: BEGIN and BLANK leave the blank pattern, ADVANCE and TEST a rendered one, the others keep PORT. -/
theorem atMostOneSlotStaysActive : Obligations.AtMostOneSlotStaysActive := by
  intro i s h
  have he := exec_eq i s
  refine ⟨_, he, ?_⟩
  cases i with
  | begin =>
    have hnone := (blanked_performAll_beginCalls h).noneActive
    exact ⟨fun _ => hnone.atMostOneActive, fun _ => hnone⟩
  | blank =>
    have hnone := (blanked_performAll_blankCalls h).noneActive
    exact ⟨fun _ => hnone.atMostOneActive, fun _ => hnone⟩
  | setstr len c0 c1 c2 c3 => exact ⟨fun hpre => atMostOneActive_of_no_calls he rfl (by simpa using hpre), by simp⟩
  | setint v => exact ⟨fun hpre => atMostOneActive_of_no_calls he rfl (by simpa using hpre), by simp⟩
  | setdp en => exact ⟨fun hpre => atMostOneActive_of_no_calls he rfl (by simpa using hpre), by simp⟩
  | advance => exact ⟨fun _ => (rendered_of_advance h he).atMostOneActive, by simp⟩
  | test => exact ⟨fun _ => (rendered_of_test h he).atMostOneActive, by simp⟩

/-! ### What a single call does to a select pin -/

/-- The call takes no select pin of the slot to its active level. -/
def PrimCall.Spares (c : Config) (slot : Fin 4) (k : PrimCall) : Prop :=
  ∀ p b v, (c.maskForDigit slot).hasPin p b = true → (k.onPort p v).getLsbD b = c.pol.digitActive →
    v.getLsbD b = c.pol.digitActive

/-- One call of a drive keeps a pin, or the pin is the mask's and takes the level (40_lookup.md R103). -/
theorem groupCall_pin {n : Nat} {m : PortMask} {level : Bool} {k : PrimCall} (hk : k ∈ groupCalls n m level)
    (p b : Nat) (v : Byte) : (k.onPort p v).getLsbD b = v.getLsbD b ∨
      m.hasPin p b = true ∧ (k.onPort p v).getLsbD b = level := by
  obtain ⟨q, -, -, rfl⟩ := mem_groupCalls hk
  by_cases hq : q = p
  · subst hq
    have hset : PrimCall.onPort (if level then .portSet q (m.byte q) else .portClear q (m.byte q)) q v =
        setLevel (m.byte q) level v := by cases level <;> simp [PrimCall.onPort, setLevel]
    rw [hset, setLevel_hasPin]
    cases m.hasPin q b <;> simp
  · left
    cases level <;> simp [PrimCall.onPort, hq]

/-- A drive to the inactive level spares every slot. -/
theorem spares_of_inactive {c : Config} {m : PortMask} {k : PrimCall}
    (hk : k ∈ groupCalls c.nports m (!c.pol.digitActive)) (slot : Fin 4) : k.Spares c slot := by
  intro p b v _ hactive
  rcases groupCall_pin hk p b v with hkeep | ⟨-, hlevel⟩
  · exact hkeep.symm.trans hactive
  · exact absurd (hlevel.symm.trans hactive) (Bool.not_ne_self _)

/-- A drive of a mask without select pins of the slot spares the slot. -/
theorem spares_of_no_pin {c : Config} {m : PortMask} {level : Bool} {k : PrimCall}
    (hk : k ∈ groupCalls c.nports m level) {slot : Fin 4}
    (hm : ∀ p b, (c.maskForDigit slot).hasPin p b = true → m.hasPin p b = false) : k.Spares c slot := by
  intro p b v hpin hactive
  rcases groupCall_pin hk p b v with hkeep | ⟨hdriven, -⟩
  · exact hkeep.symm.trans hactive
  · rw [hm p b hpin] at hdriven
    exact absurd hdriven Bool.false_ne_true

section Admitted
variable {c : Config} (ha : c.admitted = true)
include ha

/-- Check M6, from the side of a slot. -/
theorem allSegmentsMask_hasPin_of_digit {slot : Fin 4} {p b : Nat}
    (hpin : (c.maskForDigit slot).hasPin p b = true) : c.allSegmentsMask.hasPin p b = false :=
  Bool.eq_false_iff.2 fun hseg =>
    Bool.eq_false_iff.1 (Config.segment_digit_disjoint ha hseg) ((c.allDigitsMask_hasPin p b).2 ⟨slot, hpin⟩)

theorem blankCalls_spare {k : PrimCall} (hk : k ∈ blankCalls c) (slot : Fin 4) : k.Spares c slot := by
  rcases List.mem_append.1 hk with hdigits | hsegments
  · exact spares_of_inactive hdigits slot
  · exact spares_of_no_pin hsegments fun _ _ => allSegmentsMask_hasPin_of_digit ha

theorem segmentListCalls_spare {ids : List SegmentId} {k : PrimCall} (hk : k ∈ segmentListCalls c ids)
    (slot : Fin 4) : k.Spares c slot := by
  obtain ⟨id, -, hk⟩ := List.mem_flatMap.1 hk
  refine spares_of_no_pin hk fun p b hpin => Bool.eq_false_iff.2 fun hseg => ?_
  exact Bool.eq_false_iff.1 (allSegmentsMask_hasPin_of_digit ha hpin) ((c.allSegmentsMask_hasPin p b).2 ⟨id, hseg⟩)

/-- Selecting a slot spares the others (check M5). -/
theorem digitCalls_spare {slot other : Fin 4} (ho : other ≠ slot) {k : PrimCall} (hk : k ∈ digitCalls c slot) :
    k.Spares c other :=
  spares_of_no_pin hk fun _ _ hpin => Bool.eq_false_iff.2 fun hslot => ho (Config.digit_pin_unique ha hpin hslot)

end Admitted

/-- A slot active after calls that spare it was active before them. -/
theorem slotActive_of_spares {s : State} {cs : List PrimCall} {slot : Fin 4}
    (hcs : ∀ k ∈ cs, k.Spares s.config slot) (h : (s.performAll cs).slotActive slot = true) :
    s.slotActive slot = true := by
  induction cs generalizing s with
  | nil => exact h
  | cons k cs ih =>
    have hafter : (s.perform k).slotActive slot = true :=
      ih (fun d hd => (s.perform_config k).symm ▸ hcs d (List.mem_cons_of_mem k hd)) h
    obtain ⟨p, hp, b, hpin, hbit⟩ := (slotActive_iff _ slot).1 hafter
    rw [State.perform_config] at hp hpin hbit
    refine (slotActive_iff s slot).2 ⟨p, hp, b, hpin, ?_⟩
    rw [State.portBit, readPort_perform] at hbit
    rw [State.portBit]
    cases hreg : s.readPort p with
    | none => simpa [hreg] using hbit
    | some v => exact hcs k List.mem_cons_self p b v hpin (by simpa [hreg] using hbit)

/-! ### The order of the calls (R136 items 1 and 2) -/

section Order
variable {s : State} (h : s.Inv) (ids : List SegmentId) (slot : Fin 4)
include h

/-- No slot is active while segments are lit. -/
theorem noneActive_while_lighting (n : Nat) :
    (s.performAll (blankCalls s.config ++ (segmentListCalls s.config ids).take n)).NoneActive := by
  intro i
  rw [State.performAll_append, ← Bool.not_eq_true]
  intro hactive
  have hspare : ∀ k ∈ (segmentListCalls s.config ids).take n,
      k.Spares (s.performAll (blankCalls s.config)).config i := fun k hk => by
    rw [State.performAll_config]
    exact segmentListCalls_spare h.admitted (List.mem_of_mem_take hk) i
  exact absurd (slotActive_of_spares hspare hactive)
    (Bool.eq_false_iff.1 ((blanked_performAll_blankCalls h).noneActive i))

/-- Up to the selection no slot becomes active, and the selection starts from none and activates one. -/
theorem atMostOneActive_take (hone : s.AtMostOneActive) (n : Nat) :
    (s.performAll ((renderCalls s.config ids slot).take n)).AtMostOneActive := by
  rw [renderCalls, List.take_append, State.performAll_append]
  by_cases hn : n ≤ (blankCalls s.config ++ segmentListCalls s.config ids).length
  case pos =>
    have hspare : ∀ i, ∀ k ∈ (blankCalls s.config ++ segmentListCalls s.config ids).take n,
        k.Spares s.config i := by
      intro i k hk
      rcases List.mem_append.1 (List.mem_of_mem_take hk) with hblank | hlight
      · exact blankCalls_spare h.admitted hblank i
      · exact segmentListCalls_spare h.admitted hlight i
    rw [Nat.sub_eq_zero_of_le hn, List.take_zero]
    exact fun i j hi hj => hone i j (slotActive_of_spares (hspare i) hi) (slotActive_of_spares (hspare j) hj)
  case neg =>
    have hnone := noneActive_while_lighting h ids (segmentListCalls s.config ids).length
    rw [List.take_length] at hnone
    rw [List.take_of_length_le (Nat.le_of_not_le hn)]
    refine atMostOneActive_of_only (slot := slot) fun i hi => ?_
    by_contra hother
    refine absurd (slotActive_of_spares (fun k hk => ?_) hi) (Bool.eq_false_iff.1 (hnone i))
    rw [State.performAll_config]
    exact digitCalls_spare h.admitted hother (List.mem_of_mem_take hk)

end Order

/-- The calls of a selection name the slot's own mask. -/
theorem digitCalls_mask {c : Config} {slot : Fin 4} {k : PrimCall} (hk : k ∈ digitCalls c slot) :
    ∃ p m, (k = .portSet p m ∨ k = .portClear p m) ∧ m = (c.maskForDigit slot).byte p := by
  obtain ⟨p, -, -, rfl⟩ := mem_groupCalls hk
  refine ⟨p, _, ?_, rfl⟩
  cases digitLevel c.pol true
  · exact .inr rfl
  · exact .inl rfl

/-- Settles O31: the three parts of `renderCalls`, for the segments of ADVANCE. -/
theorem advanceNeverGhosts : Obligations.AdvanceNeverGhosts := by
  intro s h hone
  refine ⟨_, blankCalls s.config, segmentListCalls s.config (advanceSegments s), digitCalls s.config s.cur,
    exec_advance s, ?trace, ?port, atMostOneActive_take h _ s.cur hone, fun n _ => noneActive_while_lighting h _ n,
    blanked_performAll_blankCalls h, fun k hk => digitCalls_mask hk⟩
  case trace => rw [State.setCur_trace, State.performAll_trace, advanceCalls_eq, renderCalls]
  case port => rw [State.setCur_port, advanceCalls_eq, renderCalls]

/-- Settles O32: the three parts of `renderCalls`, for the segments of the entry. -/
theorem testNeverGhosts : Obligations.TestNeverGhosts := by
  intro s h hone
  refine ⟨_, blankCalls s.config, segmentListCalls s.config (segmentsOf (s.config.entrySegs s.symcur.val)),
    digitCalls s.config s.cur, exec_test s, ?trace, ?port, atMostOneActive_take h _ s.cur hone,
    fun n _ => noneActive_while_lighting h _ n, blanked_performAll_blankCalls h, fun k hk => digitCalls_mask hk⟩
  case trace => rw [State.setSymcur_trace, State.setCur_trace, State.performAll_trace, testCalls_eq, renderCalls]
  case port => rw [State.setSymcur_port, State.setCur_port, testCalls_eq, renderCalls]

/-! ### Repeating a command (43_multiplex.md R140) -/

/-- What holds at the start, and is carried on by each repetition, holds after any number of them. -/
theorem execAll_replicate {i : Instr} {P : Nat → State → Prop}
    (hstep : ∀ {k u t}, u.Inv → P k u → exec i u = .next t → P (k + 1) t) {s u : State} (h : s.Inv) (hs : P 0 s)
    {k : Nat} (he : execAll (List.replicate k i) s = .next u) : P k u := by
  induction k generalizing s P with
  | zero => cases he; exact hs
  | succ k ih =>
    rw [List.replicate_succ, execAll_cons] at he
    exact ih (P := fun j => P (j + 1)) hstep (h.exec (exec_eq i s)) (hstep h hs (exec_eq i s)) he

/-- The state after `k` ADVANCE commands: CUR moves `k` slots on, DP and the configuration stay. -/
def AdvancedBy (s : State) (k : Nat) (u : State) : Prop :=
  u.config = s.config ∧ u.cur.val = (s.cur.val + k) % s.config.digits ∧ u.dp = s.dp

/-- The state after `k` TEST commands: SYMCUR moves `k` entries on, the configuration stays. -/
def TestedBy (s : State) (k : Nat) (u : State) : Prop :=
  u.config = s.config ∧ u.symcur.val = (s.symcur.val + k) % s.config.symcount

section Repeat
variable {s u : State} (h : s.Inv) {k : Nat}
include h

theorem advancedBy_of_execAll (he : execAll (List.replicate k .advance) s = .next u) : AdvancedBy s k u := by
  refine execAll_replicate (P := AdvancedBy s) ?step h ⟨rfl, (Nat.mod_eq_of_lt h.cur_lt).symm, rfl⟩ he
  case step =>
    rintro k u t hu ⟨hconfig, hcur, hdp⟩ hexec
    obtain rfl := exec_cases hexec
    refine ⟨by simp [hconfig], ?_, by simpa [finish] using hdp⟩
    calc u.nextCur.val
      _ = ((s.cur.val + k) % s.config.digits + 1) % s.config.digits := by rw [nextCur_val hu.admitted, hcur, hconfig]
      _ = (s.cur.val + (k + 1)) % s.config.digits := by rw [Nat.mod_add_mod, Nat.add_assoc]

theorem testedBy_of_execAll (he : execAll (List.replicate k .test) s = .next u) : TestedBy s k u := by
  refine execAll_replicate (P := TestedBy s) ?step h ⟨rfl, (Nat.mod_eq_of_lt h.symcur_lt).symm⟩ he
  case step =>
    rintro k u t hu ⟨hconfig, hsymcur⟩ hexec
    obtain rfl := exec_cases hexec
    refine ⟨by simp [hconfig], ?_⟩
    calc u.nextSymcur.val
      _ = ((s.symcur.val + k) % s.config.symcount + 1) % s.config.symcount := by
        rw [nextSymcur_val hu.admitted, hsymcur, hconfig]
      _ = (s.symcur.val + (k + 1)) % s.config.symcount := by rw [Nat.mod_add_mod, Nat.add_assoc]

end Repeat

/-- Going round a cycle of `d` from `c` reaches every place. -/
theorem exists_add_mod_eq {c x d : Nat} (hc : c < d) (hx : x < d) : ∃ k < d, (c + k) % d = x := by
  rcases Nat.le_total c x with hle | hle
  · exact ⟨x - c, by omega, by rw [Nat.add_sub_cancel' hle, Nat.mod_eq_of_lt hx]⟩
  · refine ⟨(x + d - c) % d, Nat.mod_lt _ (by omega), ?_⟩
    rw [Nat.add_mod_mod, Nat.add_sub_cancel' (by omega), Nat.add_mod_right, Nat.mod_eq_of_lt hx]

/-- Settles O34: CUR counts the ADVANCE commands modulo DIGITS. -/
theorem fullAdvanceCycle : Obligations.FullAdvanceCycle := by
  intro s h
  refine ⟨?back, ?each, ?once⟩
  case back =>
    obtain ⟨t, ht, -⟩ := execAll_next (List.replicate s.config.digits .advance) s
    obtain ⟨-, hcur, -⟩ := advancedBy_of_execAll h ht
    exact ⟨t, ht, Fin.ext (by rw [hcur, Nat.add_mod_right, Nat.mod_eq_of_lt h.cur_lt])⟩
  case each =>
    intro slot hslot
    obtain ⟨k, hk, hmod⟩ := exists_add_mod_eq h.cur_lt hslot
    obtain ⟨u, hu, -⟩ := execAll_next (List.replicate k .advance) s
    obtain ⟨hconfig, hcur, -⟩ := advancedBy_of_execAll h hu
    obtain rfl : u.cur = slot := Fin.ext (hcur.trans hmod)
    have huInv := h.execAll hu
    have he := exec_advance u
    have hrendered := rendered_of_advance huInv he
    have ht := huInv.exec he
    exact ⟨k, hk, u, _, _, hu, rfl, he, hrendered,
      hrendered.slotActive_self ht.admitted (by rw [exec_config he]; exact huInv.cur_lt),
      fun _ => hrendered.slotActive_other⟩
  case once =>
    intro k l u v hk hl hu hv heq
    obtain ⟨-, hcuru, -⟩ := advancedBy_of_execAll h hu
    obtain ⟨-, hcurv, -⟩ := advancedBy_of_execAll h hv
    have hmod : s.cur.val + k ≡ s.cur.val + l [MOD s.config.digits] := by rw [Nat.ModEq, ← hcuru, ← hcurv, heq]
    exact (Nat.ModEq.add_left_cancel' _ hmod).eq_of_lt_of_lt hk hl

/-- Settles O35: SYMCUR counts the TEST commands modulo SYMCOUNT. -/
theorem fullTestCycle : Obligations.FullTestCycle := by
  intro s h
  refine ⟨?back, fun k => ?each⟩
  case back =>
    obtain ⟨t, ht, -⟩ := execAll_next (List.replicate s.config.symcount .test) s
    obtain ⟨-, hsymcur⟩ := testedBy_of_execAll h ht
    exact ⟨t, ht, Fin.ext (by rw [hsymcur, Nat.add_mod_right, Nat.mod_eq_of_lt h.symcur_lt])⟩
  case each =>
    obtain ⟨u, hu, -⟩ := execAll_next (List.replicate k .test) s
    obtain ⟨hconfig, hsymcur⟩ := testedBy_of_execAll h hu
    have huInv := h.execAll hu
    obtain ⟨e, hentry⟩ := exists_entry huInv
    have he := exec_test u
    refine ⟨u, _, e, hu, he, ?_, entrySegs_of_entry hentry ▸ rendered_of_test huInv he⟩
    rw [← hsymcur, ← hconfig, hentry]

/-- A table without DP leaves it to step 4 (43_multiplex.md R137 item 2). -/
theorem inSegs_advanceSegs_dp {s : State} (hdp : s.dp = true)
    (htable : ∀ g, inSegs (s.config.segmentsFor g) .dp = false) :
    inSegs (advanceSegs s) .dp = decide (s.cur.val = s.config.digits - 1) := by
  rw [advanceSegs, inSegs_or, htable, Bool.false_or]
  by_cases hlast : s.cur.val = s.config.digits - 1
  · rw [if_pos ⟨hlast, hdp⟩, inSegs_dp, decide_eq_true hlast, beq_self_eq_true]
  · rw [if_neg fun hboth => hlast hboth.1, inSegs_blank, decide_eq_false hlast]

/-- Settles O36: DP is in the rendered set exactly when CUR is the last slot. -/
theorem decimalPointOncePerCycle : Obligations.DecimalPointOncePerCycle := by
  intro s h hdp htable k
  obtain ⟨u, hu, -⟩ := execAll_next (List.replicate k .advance) s
  obtain ⟨hconfig, hcur, hdpu⟩ := advancedBy_of_execAll h hu
  have huInv := h.execAll hu
  have he := exec_advance u
  have hset : inSegs (advanceSegs u) .dp = decide ((s.cur.val + k) % s.config.digits = s.config.digits - 1) := by
    rw [inSegs_advanceSegs_dp (hdpu.trans hdp) (by rw [hconfig]; exact htable), hcur, hconfig]
  have hbit := (rendered_of_advance huInv he).segment_portBit (huInv.exec he).admitted .dp
  rw [(exec_config he).trans hconfig, hset] at hbit
  exact ⟨u, _, hu, he, fun hlast p b hpin => (hbit p b hpin).trans (if_pos (decide_eq_true hlast)),
    fun hlast p b hpin => (hbit p b hpin).trans (if_neg (by simpa using hlast))⟩

end Sys2Proof.Machine
end

section
/-!
The runs of the host's list (60_exceptions.md): CONSTRUCT with a configuration that fails a check, a step while the host is
idle, the REFUSED mark at the end of a run, and a run of encodings. A command reads neither the host's list nor the position
in it, so it does the same whatever stands there: that is all a run adds to executing its commands in order.
-/

namespace Sys2Proof

/-- The recorded check fails, and those before it in `ConfigCheck.all` hold (log 8). -/
theorem Config.failing_eq_some_iff {c : Config} {k : ConfigCheck} : c.failing = some k ↔ k.holds c = false ∧
    ∃ before after, ConfigCheck.all = before ++ k :: after ∧ ∀ j ∈ before, j.holds c = true := by
  simp [Config.failing, List.find?_eq_some_iff_append]

namespace Machine

/-! ### CONSTRUCT with a failing configuration -/

theorem construct_failing {c : ConstructInput} {k : ConfigCheck} (h : c.config.failing = some k) (s : State) :
    construct c s = .refused (.refConfig c k) := by
  rw [construct, h]

/-- Settles O47: a configuration that is not admitted has a first failing check, and CONSTRUCT answers with it. -/
theorem failingConfigurationIsRefused : Obligations.FailingConfigurationIsRefused := by
  intro s c rest hpending hnot
  have hfails : c.config.failing ≠ none := mt c.config.admitted_iff_failing.2 (Bool.eq_false_iff.1 hnot)
  obtain ⟨k, hk⟩ := Option.ne_none_iff_exists'.1 hfails
  obtain ⟨hfalse, before, after, hall, hbefore⟩ := Config.failing_eq_some_iff.1 hk
  exact ⟨before, k, after, (step_cons hpending).trans (construct_failing hk _), hall, hfalse, hbefore⟩

/-! ### Steps of a run -/

/-- Settles O40: an empty list is the first branch of `step` (log 4). -/
theorem idleHostKeepsTheState : Obligations.IdleHostKeepsTheState := fun _ h => step_idle h

/-- A run goes on from the state its first step leaves. -/
theorem run_succ {s t : State} (h : step s = .next t) (k : Nat) : core.run (k + 1) s = core.run k t := by
  have hcore : core.step s = .next t := h
  simp only [Host.Core.run, hcore]

/-! ### REFUSED at the end of a run (R152) -/

/-- Only a word that does not decode sets REFUSED. -/
theorem step_word_refused_iff {s t : State} {w : CmdWord} {rest : List Event} (h : s.pending = .command w :: rest)
    (hstep : step s = .next t) : t.refused = false ↔ s.refused = false ∧ ∃ i, decode w = .command i := by
  cases hd : decode w with
  | command i =>
    obtain rfl := exec_cases ((step_command h hd).symm.trans hstep)
    simp
  | refuse r =>
    obtain rfl := Host.Outcome.next.inj ((step_refuse h hd).symm.trans hstep)
    simp

theorem decodable_cons {w : CmdWord} {ws : List CmdWord} :
    Decodable (w :: ws) ↔ (∃ i, decode w = .command i) ∧ Decodable ws := List.forall_mem_cons

/-- A list of command words always runs to its end, with REFUSED as it was exactly where every word decodes. -/
theorem run_words (ws : List CmdWord) {s : State} (h : s.pending = ws.map .command) :
    ∃ t, core.run ws.length s = .next t ∧ (t.refused = false ↔ s.refused = false ∧ Decodable ws) := by
  induction ws generalizing s with
  | nil => exact ⟨s, rfl, by simp [Decodable]⟩
  | cons w ws ih =>
    obtain ⟨u, hu, hpending, -⟩ := step_word h
    obtain ⟨t, ht, hrefused⟩ := ih hpending
    exact ⟨t, (run_succ hu ws.length).trans ht, by
      rw [hrefused, step_word_refused_iff h hu, decodable_cons, and_assoc]⟩

/-- Settles O42: the run ends in one state, and `run_words` says when REFUSED is 0 there. -/
theorem safeRunsAreDecodable : Obligations.SafeRunsAreDecodable := by
  intro s ws
  obtain ⟨t, ht, hrefused⟩ := run_words ws (s := { s with pending := ws.map .command }) rfl
  have hsafe : SafeRun ws s ↔ t.refused = false := by
    constructor
    · rintro ⟨u, hu, hu0⟩
      obtain rfl := Host.Outcome.next.inj (ht.symm.trans hu)
      exact hu0
    · exact fun ht0 => ⟨t, ht, ht0⟩
  exact hsafe.trans hrefused

/-! ### Commands and the host's list (R165) -/

/-- The state with the host's list at these events and this position. -/
def State.withList (es : List Event) (n : Nat) (s : State) : State := { s with pending := es, pos := n }

@[simp] theorem withList_pending (es : List Event) (n : Nat) (s : State) : (s.withList es n).pending = es := rfl

theorem takeCommand_withList (es rest : List Event) (n : Nat) (s : State) :
    (s.withList es n).takeCommand rest = s.withList rest (n + 1) := rfl

section WithList
variable (es : List Event) (n : Nat) {s t : State}

theorem performAll_withList (cs : List PrimCall) :
    (s.withList es n).performAll cs = (s.performAll cs).withList es n :=
  List.foldl_hom (State.withList es n) fun _ k => by cases k <;> rfl

theorem commandCalls_withList (i : Instr) : commandCalls i (s.withList es n) = commandCalls i s := by cases i <;> rfl

theorem finish_withList (i : Instr) :
    finish i (s.withList es n) (t.withList es n) = (finish i s t).withList es n := by cases i <;> rfl

/-- A command reads neither the host's list nor the position, and leaves both. -/
theorem exec_withList {i : Instr} (h : exec i s = .next t) :
    exec i (s.withList es n) = .next (t.withList es n) := by
  rw [exec_cases h, exec_eq, commandCalls_withList, performAll_withList, finish_withList]

end WithList

/-- The encoding of a well-formed command, next in the list, runs that command. -/
theorem step_encode {s t : State} {i : Instr} (hwf : i.wellFormed = true) (he : exec i s = .next t) (rest : List Event)
    (n : Nat) : step (s.withList (.command (encode i) :: rest) n) = .next (t.withList rest (n + 1)) := by
  rw [step_command (withList_pending _ n s) (decodeOfEncode i hwf), takeCommand_withList]
  exact exec_withList rest (n + 1) he

/-- The encodings in the list run as their commands do in order, from any position. -/
theorem run_encodings {is : List Instr} (hwf : ∀ i ∈ is, i.wellFormed = true) {s t : State}
    (h : execAll is s = .next t) (n : Nat) :
    core.run is.length (s.withList ((is.map encode).map .command) n) = .next (t.withList [] (n + is.length)) := by
  induction is generalizing s n with
  | nil => cases h; rfl
  | cons i is ih =>
    obtain ⟨hi, his⟩ := List.forall_mem_cons.1 hwf
    rw [execAll_cons] at h
    calc core.run (is.length + 1) (s.withList (.command (encode i) :: (is.map encode).map .command) n)
      _ = core.run is.length _ := run_succ (step_encode hi (exec_eq i s) _ n) is.length
      _ = .next (t.withList [] (n + 1 + is.length)) := ih his h (n + 1)
      _ = .next (t.withList [] (n + (is.length + 1))) := by rw [Nat.add_right_comm, Nat.add_assoc]

/-- Settles O41: commands in order always complete, and their encodings run the same way. -/
theorem runIsTheCommandsInOrder : Obligations.RunIsTheCommandsInOrder := by
  intro s is hwf
  obtain ⟨t, ht, -⟩ := execAll_next is s
  refine ⟨t, ht, ?_⟩
  rw [runProgram, List.length_map]
  exact run_encodings hwf ht s.pos

end Machine
end Sys2Proof
end

section
/-!
Reset and hazards (70_reset_and_hazards.md): what CONSTRUCT leaves, the dark display after BLANK, CUR as a count of
ticks, and the number of calls of each command. A blanked PORT is a fixed point of every call of BEGIN, so the BEGIN window
shows nothing; a mask that lies on one port is driven by one call, which gives the exact count on REF-A.
-/

namespace Sys2Proof

/-- A byte of a mask is non-zero exactly when the mask has a pin on its port. -/
theorem PortMask.byte_ne_zero_iff (m : PortMask) (p : Nat) : m.byte p ≠ 0 ↔ ∃ b, m.hasPin p b = true := by
  constructor
  · intro hne
    by_contra hno
    refine hne (BitVec.eq_of_getLsbD_eq fun b _ => ?_)
    have hb : m.hasPin p b = false := Bool.eq_false_iff.2 fun hb => hno ⟨b, hb⟩
    exact hb.trans BitVec.getLsbD_zero.symm
  · rintro ⟨b, hb⟩ hzero
    simp [hasPin, hzero] at hb

namespace Config

/-- POL by its code in bits 4:3 of CFG (10_state.md R30). -/
theorem pol_eq_getD (c : Config) : c.pol = [Polarity.ca, .cc, .caid, .ccid].getD (c.cfg.toNat / 8 % 4) .ca := by
  have hcode : ∀ code : BitVec 2, Polarity.ofCode code = [Polarity.ca, .cc, .caid, .ccid].getD code.toNat .ca := by
    decide
  rw [pol, hcode, BitVec.extractLsb'_toNat, Nat.shiftRight_eq_div_pow]

/-- Check M2: every segment has a pin. -/
theorem segment_pin_exists {c : Config} (h : c.admitted = true) (id : SegmentId) :
    ∃ p b, (c.maskForSegment id).hasPin p b = true := c.holds_m2_iff.1 (holds_of_admitted h .m2) id.code

end Config

namespace Machine

/-! ### CONSTRUCT (R171 to R174) -/

theorem construct_admitted {c : ConstructInput} (h : c.config.admitted = true) (s : State) :
    construct c s = .next (s.newInstance c.config) := by
  rw [construct, c.config.admitted_iff_failing.1 h]

/-- Inversion: a CONSTRUCT that goes on was given an admitted configuration. -/
theorem construct_cases {c : ConstructInput} {s t : State} (h : construct c s = .next t) :
    c.config.admitted = true ∧ t = s.newInstance c.config := by
  cases hf : c.config.failing with
  | some k => rw [construct_failing hf] at h; cases h
  | none =>
    have ha := c.config.admitted_iff_failing.2 hf
    exact ⟨ha, (Host.Outcome.next.inj ((construct_admitted ha s).symm.trans h)).symm⟩

/-- A port that has registers keeps them (log 7). -/
theorem extendPorts_getElem? (n : Nat) (init : Nat → Byte) {l : List Byte} {p : Nat} (hp : p < l.length) :
    (extendPorts n init l)[p]? = l[p]? := List.getElem?_append_left hp

/-- Settles O44: the configuration of log 1 is admitted, so the first CONSTRUCT makes its fresh state. -/
theorem resetIsTheFirstConstruct : Obligations.ResetIsTheFirstConstruct := by
  have hadmitted : resetInput.config.admitted = true := by decide
  exact boot_construct hadmitted Config.portInit Config.dirInit []

/-- Settles O46: the fields of `newInstance`, and the registers that `extendPorts` keeps. -/
theorem laterConstruct : Obligations.LaterConstruct := by
  intro s c rest hpending hadmitted hlen
  refine ⟨_, (step_cons hpending).trans (construct_admitted hadmitted _), rfl, c.config.digits_eq_mod,
    c.config.pol_eq_getD, spaces_cell, rfl, rfl, rfl, rfl, fun p hp => ⟨?port, ?dir⟩, rfl, rfl⟩
  case port => exact extendPorts_getElem? _ _ hp
  case dir => exact extendPorts_getElem? _ _ (hlen ▸ hp)

/-! ### The display is dark after BLANK (R181) -/

section Blanked
variable {t : State} (h : t.Blanked) (ha : t.config.admitted = true)
include h ha

theorem State.Blanked.digit_portBit {p b : Nat} (hpin : t.config.allDigitsMask.hasPin p b = true) :
    t.portBit p b = !t.config.pol.digitActive :=
  (h p b (Config.own_pin_port ha (inside_allDigits _ p b hpin))).1 hpin

theorem State.Blanked.segment_portBit {p b : Nat} (hpin : t.config.allSegmentsMask.hasPin p b = true) :
    t.portBit p b = !t.config.pol.segActive :=
  (h p b (Config.own_pin_port ha (inside_allSegments _ p b hpin))).2 hpin

/-- An unused slot is never on, and a used one has a select pin (check M4), which is inactive. -/
theorem State.Blanked.digitOn (slot : Fin 4) : t.digitOn slot = false := by
  by_cases hused : slot.val < t.config.digits
  · obtain ⟨p, b, hpin⟩ := Config.digit_pin_exists ha hused
    have hbit := h.digit_portBit ha ((Config.allDigitsMask_hasPin _ p b).2 ⟨slot, hpin⟩)
    rw [State.digitOn, not_driven (Config.digit_pin_port ha hpin) hpin hbit, Bool.and_false]
  · rw [State.digitOn, decide_eq_false hused, Bool.false_and]

/-- Every segment has a pin (check M2), which is inactive. -/
theorem State.Blanked.segmentOn (id : SegmentId) : t.segmentOn id = false := by
  obtain ⟨p, b, hpin⟩ := Config.segment_pin_exists ha id
  have hbit := h.segment_portBit ha ((Config.allSegmentsMask_hasPin _ p b).2 ⟨id, hpin⟩)
  exact not_driven (Config.segment_pin_port ha hpin) hpin hbit

end Blanked

theorem blanked_of_blank {s t : State} (h : s.Inv) (he : exec .blank s = .next t) : t.Blanked := by
  obtain rfl := exec_cases he
  exact blanked_performAll_blankCalls h

/-- Settles O21: BLANK leaves the inactive pattern, in which no pin of either axis is at its active level. -/
theorem nothingIsLitAfterBlank : Obligations.NothingIsLitAfterBlank := by
  intro s h
  obtain ⟨t, he⟩ : ∃ t, exec .blank s = .next t := ⟨_, exec_blank s⟩
  have hblanked := blanked_of_blank h he
  have ha := (h.exec he).admitted
  rw [← exec_config he]
  exact ⟨t, he, fun p b hpin => pinLevel_ne (hblanked.digit_portBit ha hpin),
    fun p b hpin => pinLevel_ne (hblanked.segment_portBit ha hpin), hblanked.digitOn ha, hblanked.segmentOn ha⟩

/-! ### The BEGIN window (R179) -/

/-- A call of a drive leaves a register whose pins in the mask are at the level already. -/
theorem groupCall_onPort_eq_self {n : Nat} {m : PortMask} {level : Bool} {k : PrimCall}
    (hk : k ∈ groupCalls n m level) {p : Nat} {v : Byte} (hv : ∀ b, m.hasPin p b = true → v.getLsbD b = level) :
    k.onPort p v = v := by
  apply BitVec.eq_of_getLsbD_eq
  intro b _
  rcases groupCall_pin hk p b v with hkeep | ⟨hpin, hlevel⟩
  · exact hkeep
  · rw [hlevel, hv b hpin]

/-- No call of BEGIN changes a blanked output register. -/
theorem beginCall_onPort_eq_self {s : State} (h : s.Blanked) (ha : s.config.admitted = true) {k : PrimCall}
    (hk : k ∈ beginCalls s) {p : Nat} (hl : p < s.port.length) : k.onPort p s.port[p] = s.port[p] := by
  rcases List.mem_append.1 hk with hdir | hblank
  · obtain ⟨q, -, -, rfl⟩ := mem_dirCalls hdir
    rfl
  · rcases List.mem_append.1 hblank with hdigits | hsegments
    · exact groupCall_onPort_eq_self hdigits fun b hpin => (s.getLsbD_port hl b).trans (h.digit_portBit ha hpin)
    · exact groupCall_onPort_eq_self hsegments fun b hpin => (s.getLsbD_port hl b).trans (h.segment_portBit ha hpin)

/-- Calls that each leave every output register leave PORT. -/
theorem performAll_port_eq_self {s : State} {cs : List PrimCall}
    (h : ∀ k ∈ cs, ∀ p (hl : p < s.port.length), k.onPort p s.port[p] = s.port[p]) :
    (s.performAll cs).port = s.port := by
  refine List.ext_getElem (s.performAll_port_length cs) fun p _ hl => ?_
  have hfold : cs.foldl (fun v k => k.onPort p v) s.port[p] = s.port[p] :=
    List.foldlRecOn (motive := (· = s.port[p])) cs _ rfl fun _ hv k hk => (congrArg _ hv).trans (h k hk p hl)
  apply Option.some.inj
  rw [← List.getElem?_eq_getElem, State.performAll_port, List.getElem?_eq_getElem hl, Option.map_some, hfold]

theorem State.Blanked.of_port_eq {s t : State} (h : s.Blanked) (hc : t.config = s.config) (hp : t.port = s.port) :
    t.Blanked := by
  simpa only [State.Blanked, hc, State.portBit_congr hp] using h

/-- Settles O22: from the blanked state every call of BEGIN leaves PORT as it is. -/
theorem blankClosesTheBeginWindow : Obligations.BlankClosesTheBeginWindow := by
  intro s s1 h h1
  have ha := (h.exec h1).admitted
  have hblanked := blanked_of_blank h h1
  refine ⟨_, exec_begin s1, fun n => hblanked.of_port_eq (State.performAll_config s1 _)
    (performAll_port_eq_self ?fixed)⟩
  case fixed => exact fun k hk p hl => beginCall_onPort_eq_self hblanked ha (List.mem_of_mem_take hk) hl

/-! ### CUR counts the ticks (R180) -/

/-- The number of ADVANCE and TEST commands in a list. -/
def ticks (is : List Instr) : Nat := (is.filter fun i => i == .advance || i == .test).length

theorem ticks_cons (i : Instr) (is : List Instr) : ticks (i :: is) = ticks [i] + ticks is := by
  rw [ticks, ← List.singleton_append, List.filter_append, List.length_append, ticks, ticks]

section Ticks
variable {s t : State} (h : s.Inv) (hpar : s.config.testAdvancesCur = true)
include h hpar

/-- A tick moves CUR one slot on, every other command leaves it. -/
theorem cur_of_exec {i : Instr} (he : exec i s = .next t) :
    t.cur.val = (s.cur.val + ticks [i]) % s.config.digits := by
  obtain rfl := exec_cases he
  have hkeep : s.cur.val = s.cur.val % s.config.digits := (Nat.mod_eq_of_lt h.cur_lt).symm
  cases i with
  | begin => exact (congrArg Fin.val (State.performAll_cur s _)).trans hkeep
  | blank => exact (congrArg Fin.val (State.performAll_cur s _)).trans hkeep
  | setstr len c0 c1 c2 c3 => exact hkeep
  | setint v => exact hkeep
  | setdp en => exact hkeep
  | advance => exact nextCur_val h.admitted
  | test => exact (testCur_val h.admitted).trans (if_pos hpar)

theorem cur_of_execAll {is : List Instr} (he : execAll is s = .next t) :
    t.cur.val = (s.cur.val + ticks is) % s.config.digits := by
  induction is generalizing s with
  | nil => cases he; exact (Nat.mod_eq_of_lt h.cur_lt).symm
  | cons i is ih =>
    have hi := exec_eq i s
    have hconfig := exec_config hi
    rw [execAll_cons] at he
    rw [ih (h.exec hi) (by rw [hconfig]; exact hpar) he, cur_of_exec h hpar hi, hconfig, Nat.mod_add_mod,
      Nat.add_assoc, ← ticks_cons]

end Ticks

/-- Settles O37: a fresh state meets the invariant and has CUR 0. -/
theorem cursorCountsTicks : Obligations.CursorCountsTicks := by
  intro c portInit dirInit is hadmitted hpar
  obtain ⟨t, ht, -⟩ := execAll_next is (State.fresh c portInit dirInit)
  have hcur := cur_of_execAll (fresh_inv hadmitted portInit dirInit) hpar ht
  exact ⟨t, ht, hcur.trans (by rw [State.fresh_cur, State.fresh_config, Fin.val_zero, Nat.zero_add, ticks])⟩

/-! ### How many calls each command makes at most (R185) -/

section Bounds
variable (c : Config)

theorem blankCalls_length_le : (blankCalls c).length ≤ 2 * c.nports := by
  have hdigits := groupCalls_length c.nports c.allDigitsMask (digitLevel c.pol false)
  have hsegments := groupCalls_length c.nports c.allSegmentsMask (segLevel c.pol false)
  rw [blankCalls, List.length_append]
  omega

theorem segmentListCalls_length_le (ids : List SegmentId) :
    (segmentListCalls c ids).length ≤ ids.length * c.nports := by
  rw [segmentListCalls, List.length_flatMap, ← List.length_map (fun id => (segmentCalls c id).length),
    ← smul_eq_mul]
  refine List.sum_le_card_nsmul _ _ fun n hn => ?_
  obtain ⟨id, -, rfl⟩ := List.mem_map.1 hn
  exact groupCalls_length _ _ _

/-- A render drives every segment of its list over at most every port. -/
theorem renderCalls_length_le {ids : List SegmentId} {k : Nat} (hk : ids.length ≤ k) (slot : Fin 4) :
    (renderCalls c ids slot).length ≤ 2 * c.nports + k * c.nports + c.nports := by
  have hblank := blankCalls_length_le c
  have hlight := (segmentListCalls_length_le c ids).trans (Nat.mul_le_mul_right _ hk)
  have hselect : (digitCalls c slot).length ≤ c.nports := groupCalls_length _ _ _
  rw [renderCalls, List.length_append, List.length_append]
  omega

end Bounds

theorem beginCalls_length_le (s : State) : (beginCalls s).length ≤ s.config.nports + 2 * s.config.nports := by
  rw [beginCalls, List.length_append]
  exact Nat.add_le_add (dirCalls_length _ _) (blankCalls_length_le _)

theorem segmentsOf_length_le (segs : Byte) : (segmentsOf segs).length ≤ 8 := List.length_filter_le _ _

/-- The segments of ADVANCE: the glyph's, and one more when DP fires. -/
theorem advanceSegments_length (s : State) : (advanceSegments s).length =
    (segmentsOf (s.config.segmentsFor s.buf[s.cur])).length + if s.dpFires then 1 else 0 := by
  rw [advanceSegments, List.length_append, apply_ite List.length, List.length_singleton, List.length_nil]

theorem advanceSegments_length_le (s : State) : (advanceSegments s).length ≤ 9 := by
  have hglyph := segmentsOf_length_le (s.config.segmentsFor s.buf[s.cur])
  rw [advanceSegments_length]
  split <;> omega

/-! ### How many calls an ADVANCE makes on REF-A (R185) -/

/-- A mask with a pin whose pins all lie on one port is driven by one call. -/
theorem groupCalls_length_eq_one {n q : Nat} {m : PortMask} (hport : ∀ p b, m.hasPin p b = true → p < n)
    (hpin : ∃ p b, m.hasPin p b = true) (honly : ∀ p b, m.hasPin p b = true → p = q) (level : Bool) :
    (groupCalls n m level).length = 1 := by
  obtain ⟨p, b, hb⟩ := hpin
  obtain rfl := honly p b hb
  have hdriven : ∀ q, (m.byte q != 0) = (q == p) := by
    intro q
    rw [Bool.eq_iff_iff, bne_iff_ne, beq_iff_eq, PortMask.byte_ne_zero_iff]
    constructor
    · rintro ⟨b', hb'⟩
      exact honly q b' hb'
    · rintro rfl
      exact ⟨b, hb⟩
  rw [groupCalls_eq_map, List.length_map, drivenPorts, List.filter_congr fun q _ => hdriven q,
    ← List.countP_eq_length_filter]
  exact List.count_eq_one_of_mem List.nodup_range (List.mem_range.2 (hport p b hb))

section RefA
variable {c : Config} {cfg : Byte} (hc : c = (refA cfg).config)
include hc

/-- REF-A has every segment on port 2 (95_test_vectors.md §1). -/
theorem refA_segment_port (id : SegmentId) (p b : Nat) (hpin : (c.maskForSegment id).hasPin p b = true) : p = 2 := by
  have hmask : ∃ x, c.maskForSegment id = [0, 0, x] := by subst hc; cases id <;> exact ⟨_, rfl⟩
  obtain ⟨x, hx⟩ := hmask
  rw [hx] at hpin
  match p with
  | 0 => simp [PortMask.hasPin] at hpin
  | 1 => simp [PortMask.hasPin] at hpin
  | 2 => rfl
  | p + 3 => simp [PortMask.hasPin] at hpin

/-- REF-A has every select line on port 0 (95_test_vectors.md §1). -/
theorem refA_digit_port (slot : Fin 4) (p b : Nat) (hpin : (c.maskForDigit slot).hasPin p b = true) : p = 0 := by
  have hmask : ∃ x, c.digMask[slot] = [x, 0, 0] := by
    subst hc
    exact match slot with
    | 0 => ⟨_, rfl⟩
    | 1 => ⟨_, rfl⟩
    | 2 => ⟨_, rfl⟩
    | 3 => ⟨_, rfl⟩
  obtain ⟨x, hx⟩ := hmask
  have hentry := ((c.maskForDigit_hasPin_iff slot p b).1 hpin).2
  rw [hx] at hentry
  match p with
  | 0 => rfl
  | 1 => simp [PortMask.hasPin] at hentry
  | 2 => simp [PortMask.hasPin] at hentry
  | p + 3 => simp [PortMask.hasPin] at hentry

variable (ha : c.admitted = true)
include ha

theorem refA_segmentCalls_length (id : SegmentId) : (segmentCalls c id).length = 1 :=
  groupCalls_length_eq_one (fun _ _ => Config.segment_pin_port ha) (Config.segment_pin_exists ha id)
    (refA_segment_port hc id) _

theorem refA_digitCalls_length {slot : Fin 4} (hslot : slot.val < c.digits) : (digitCalls c slot).length = 1 :=
  groupCalls_length_eq_one (fun _ _ => Config.digit_pin_port ha) (Config.digit_pin_exists ha hslot)
    (refA_digit_port hc slot) _

/-- One call for the digits, all on port 0, and one for the segments, all on port 2. -/
theorem refA_blankCalls_length : (blankCalls c).length = 2 := by
  have hdigits : (groupCalls c.nports c.allDigitsMask (digitLevel c.pol false)).length = 1 := by
    obtain ⟨p, b, hpin⟩ := Config.digit_pin_exists ha (s := 0) (Config.digits_pos ha)
    refine groupCalls_length_eq_one (q := 0) (fun p b hb => Config.own_pin_port ha (inside_allDigits c p b hb))
      ⟨p, b, (c.allDigitsMask_hasPin p b).2 ⟨0, hpin⟩⟩ (fun p b hb => ?_) _
    obtain ⟨slot, hslot⟩ := (c.allDigitsMask_hasPin p b).1 hb
    exact refA_digit_port hc slot p b hslot
  have hsegments : (groupCalls c.nports c.allSegmentsMask (segLevel c.pol false)).length = 1 := by
    obtain ⟨p, b, hpin⟩ := Config.segment_pin_exists ha .a
    refine groupCalls_length_eq_one (q := 2) (fun p b hb => Config.own_pin_port ha (inside_allSegments c p b hb))
      ⟨p, b, (c.allSegmentsMask_hasPin p b).2 ⟨.a, hpin⟩⟩ (fun p b hb => ?_) _
    obtain ⟨id, hid⟩ := (c.allSegmentsMask_hasPin p b).1 hb
    exact refA_segment_port hc id p b hid
  rw [blankCalls, List.length_append, hdigits, hsegments]

theorem refA_renderCalls_length (ids : List SegmentId) {slot : Fin 4} (hslot : slot.val < c.digits) :
    (renderCalls c ids slot).length = 2 + ids.length + 1 := by
  have hlight : (segmentListCalls c ids).length = ids.length := by
    simp [segmentListCalls, List.length_flatMap, refA_segmentCalls_length hc ha]
  rw [renderCalls, List.length_append, List.length_append, refA_blankCalls_length hc ha, hlight,
    refA_digitCalls_length hc ha hslot]

end RefA

/-- The number of segments of a set is its number of bits (40_lookup.md R92). -/
theorem segmentsOf_length_eq (segs : Byte) :
    (segmentsOf segs).length = ((List.range 8).filter fun b => segs.getLsbD b).length := by
  have hcodes : List.range 8 = SegmentId.all.map fun id => id.code.val := rfl
  rw [hcodes, List.filter_map, List.length_map]
  rfl

/-- Settles O48: each command by the lengths of its parts, CONSTRUCT by its inversion, REF-A by its two ports. -/
theorem traceBounds : Obligations.TraceBounds := by
  refine ⟨fun i s => ⟨_, commandCalls i s, exec_eq i s, by simp, ?bounds⟩, fun c s t hc => ?construct, ?refA⟩
  case bounds =>
    cases i with
    | begin => exact beginCalls_length_le s
    | blank => exact blankCalls_length_le s.config
    | setstr len c0 c1 c2 c3 => exact Nat.le_refl 0
    | setint v => exact Nat.le_refl 0
    | setdp en => exact Nat.le_refl 0
    | advance =>
      have hrender := renderCalls_length_le s.config (advanceSegments_length_le s) s.cur
      rw [← advanceCalls_eq] at hrender
      calc (advanceCalls s).length
        _ ≤ 2 * s.config.nports + 9 * s.config.nports + s.config.nports := hrender
        _ = 2 * s.config.nports + 8 * s.config.nports + s.config.nports + s.config.nports := by omega
    | test =>
      have hrender := renderCalls_length_le s.config
        (segmentsOf_length_le (s.config.entrySegs s.symcur.val)) s.cur
      rwa [← testCalls_eq] at hrender
  case construct =>
    obtain ⟨-, rfl⟩ := construct_cases hc
    rfl
  case refA =>
    intro s cfg h hconfig
    refine ⟨_, advanceCalls s, exec_advance s, by simp, ?_⟩
    rw [advanceCalls_eq, refA_renderCalls_length hconfig h.admitted _ h.cur_lt, advanceSegments_length,
      segmentsOf_length_eq, if_congr (dpFires_iff s) rfl rfl, ← Nat.add_assoc]

end Machine

end Sys2Proof
end
